-- ==== Sys2Proof/Word.lean ====
section
/-! DEFINITION. The two word types of the block: the 32-bit bus word and the 256-bit element
(spec 00_scope.md R7, R10; 20_memory.md R52). -/

namespace Sys2Proof

/-- A bus word, a command word, one word of an operand (R50, R52, R80). -/
abbrev Word := BitVec 32

/-- A 256-bit operand or result (R7, R21 to R23). -/
abbrev Elem := BitVec 256

end Sys2Proof
end

