-- ==== Sys2Proof/Config.lean ====
section
/-! DEFINITION. What is fixed for one block instance (spec 00_scope.md R8, R9) and the values the
spec leaves open, each an opaque constant: nothing can evaluate it, so a claim holds whatever it is. -/

namespace Sys2Proof

/-- `R_BITS` (R9): the Montgomery radix is 2 to this power. -/
def Config.rBits : Nat := 256

/-- The Montgomery radix R = 2^R_BITS (R9, R100). -/
def Config.radix : Nat := 2 ^ Config.rBits

/-- MOD_P, the field prime, selected by MSEL = 0 (R8). -/
def Config.modP : Nat :=
  0xFFFFFFFEFFFFFFFFFFFFFFFFFFFFFFFFFFFFFFFF00000000FFFFFFFFFFFFFFFF

/-- MOD_N, the curve order, selected by MSEL = 1 (R8). -/
def Config.modN : Nat :=
  0xFFFFFFFEFFFFFFFFFFFFFFFFFFFFFFFF7203DF6B21C6052B53BBF40939D54123

/-- `WINDOW`: the register window's size in bytes (R9, R51). -/
def Config.window : Nat := 0x100

/-- `ID_VALUE`: what the ID register reads (R9, R27). -/
def Config.idValue : Word := 0x4D4D0100#32

/-- `BASE` in units of the window. OPEN, a platform parameter (R9, D24); log entry 7. -/
opaque Config.basePage : Nat

/-- `BASE`, the bus address of offset 0: open, but aligned to 0x100 (R51). -/
def Config.base : Nat := Config.basePage * Config.window

/-- The interrupt line number at the platform's controller. OPEN (R204, D24); log entry 17. -/
opaque Config.irqLine : Nat

/-- `LAT(op) - 1` for each opcode. OPEN (R9, D16); log entry 3. -/
opaque Config.latMinusOne : BitVec 4 → Nat

/-- `LAT(op)`, the clock cycles from acceptance to completion: at least 1, a function of the opcode
alone, so it depends neither on operand values nor on MSEL (R9, R261). -/
def Config.lat (op : BitVec 4) : Nat := Config.latMinusOne op + 1

/-- `BUSERR_REPORT`: whether the platform makes a BusError a bus fault at the host, or an ignored
response. OPEN (R53, D31); log entry 6. -/
opaque Config.busErrorFaults : Bool

/-- A FREE VALUE: what a read made while `rst_n` is asserted returns (R250, D17); log entry 4. -/
opaque Config.resetReadData : Nat → Word

/-- A FREE VALUE: whether any other access made while `rst_n` is asserted is answered as an
ordinary access is, or with BusError (R250 is silent); log entry 4. -/
opaque Config.resetAcks : Nat → Bool

end Sys2Proof
end

