-- ==== Sys2Proof/Syntax.lean ====
section
/-! DEFINITION. The instructions (one constructor per row of spec/opcode_table.json), the two fields
of a command, the host's bus accesses that carry them, and the address map's places
(spec 20_memory.md R50 to R53, 30_encoding.md R80 to R89). -/

namespace Sys2Proof

/-- The legal values of the OP field (R81). -/
inductive Op where
  | montmul | tomont | frommont | modmul
  deriving DecidableEq, Repr

/-- The OP field's four bits (R81). -/
def Op.code : Op → BitVec 4
  | .montmul => 1#4
  | .tomont => 2#4
  | .frommont => 3#4
  | .modmul => 4#4

/-- The modulus select field (R82). -/
inductive MSel where
  | p | n
  deriving DecidableEq, Repr

/-- The MSEL bit (R82). -/
def MSel.bit : MSel → BitVec 1
  | .p => 0#1
  | .n => 1#1

/-- One constructor per row of spec/opcode_table.json. An instruction is one write of a 32-bit word
to CMD (R80), CTRL or STATUS (R86). -/
inductive Instr where
  /-- MONTMUL.P (R105, R88). -/
  | montmulP
  /-- MONTMUL.N (R105, R88). -/
  | montmulN
  /-- TOMONT.P (R106, R88). -/
  | tomontP
  /-- TOMONT.N (R106, R88). -/
  | tomontN
  /-- FROMMONT.P (R107, R88). -/
  | frommontP
  /-- FROMMONT.N (R107, R88). -/
  | frommontN
  /-- MODMUL.P (R130, R88). -/
  | modmulP
  /-- MODMUL.N (R130, R88). -/
  | modmulN
  /-- ILLEGAL_CMD: a CMD word that names no command; CMDR keeps its low five bits, so the word is
  carried (R87, R159). -/
  | illegalCmd (word : Word)
  /-- SRST: a CTRL write with bit 1 set; its other bits are ignored (R86, R155). -/
  | srst
  /-- IE_WRITE: a CTRL write with bit 1 clear; `ie` is bit 0 (R86, R156). -/
  | ieWrite (ie : Bool)
  /-- CLRDONE: a STATUS write with bit 1 set; `ovr` is bit 3, which clears OVR as well (R157, R158). -/
  | clrDone (ovr : Bool)
  /-- CLROVR: a STATUS write with bit 3 set; `done` is bit 1, which clears DONE as well (R158). -/
  | clrOvr (done : Bool)
  deriving DecidableEq, Repr

/-- One host access at a byte offset from BASE (R50, R89). `width` is the access's width in bits and
`lanes` the write's byte enables, for R53 case 2: the block performs 32-bit accesses only. -/
inductive Access where
  | read (off width : Nat)
  | write (off width : Nat) (lanes : BitVec 4) (data : Word)
  deriving DecidableEq, Repr

/-- The access's byte offset. -/
def Access.off : Access → Nat
  | .read off _ => off
  | .write off _ _ _ => off

/-- The host step `R off` (R89). -/
def Access.r (off : Nat) : Access := .read off 32

/-- The host step `W off, d` (R89). -/
def Access.w (off : Nat) (d : Word) : Access := .write off 32 0xF#4 d

/-- What stands at an aligned offset of the window (R51); `word` numbers a register's 32-bit words. -/
inductive Place where
  | id | ctrl | status | cmd
  | opA (word : Nat) | opB (word : Nat) | resZ (word : Nat)
  | reserved
  deriving DecidableEq, Repr

/-- Why an access is no instruction of the opcode table. -/
inductive Reject where
  /-- The port refuses the access (R53). -/
  | busError
  /-- A read (R58). -/
  | isRead
  /-- A write of a word of A or B (R60). -/
  | operandWord
  /-- A STATUS write with neither W1C bit: every bit of it is ignored (R26). -/
  | statusNoAction
  /-- A write to ID, Z or a reserved offset, which is ignored (R61). -/
  | ignoredOffset
  deriving DecidableEq, Repr

end Sys2Proof
end

