-- ==== Sys2Proof/Decode.lean ====
section
/-! DEFINITION. The port's check of an access (spec 20_memory.md R53), the address map (R51), the
decoder of command and control words (30_encoding.md R84, R86), total on any access and rejecting by
name, and the encoder written from the same tables (R81, R86, R88). -/

namespace Sys2Proof

/-- R53: the access is misaligned, not 32 bits wide (or not all byte enables are set), or outside
the window. -/
def Access.refused : Access → Bool
  | .read off width => off % 4 != 0 || width != 32 || decide (Config.window ≤ off)
  | .write off width lanes _ =>
    off % 4 != 0 || width != 32 || lanes != 0xF#4 || decide (Config.window ≤ off)

/-- The address map of the window (R51). -/
def placeOf (off : Nat) : Place :=
  if off = 0x000 then .id
  else if off = 0x004 then .ctrl
  else if off = 0x008 then .status
  else if off = 0x00C then .cmd
  else if off < 0x020 then .reserved
  else if off < 0x040 then .opA ((off - 0x020) / 4)
  else if off < 0x060 then .opB ((off - 0x040) / 4)
  else if off < 0x080 then .resZ ((off - 0x060) / 4)
  else .reserved

/-- Decode of a command word (R84): a word with d[31:5] ≠ 0 is illegal whatever OP holds (R83). -/
def decodeCmd (d : Word) : Instr :=
  if d.extractLsb' 5 27 ≠ 0#27 then .illegalCmd d
  else match (d.extractLsb' 0 4).toNat, d.getLsbD 4 with
    | 1, false => .montmulP
    | 1, true => .montmulN
    | 2, false => .tomontP
    | 2, true => .tomontN
    | 3, false => .frommontP
    | 3, true => .frommontN
    | 4, false => .modmulP
    | 4, true => .modmulN
    | _, _ => .illegalCmd d

/-- A CTRL write (R86, R155, R156): bit 1 decides, bits 31:2 are ignored. -/
def decodeCtrl (d : Word) : Instr :=
  if d.getLsbD 1 then .srst else .ieWrite (d.getLsbD 0)

/-- A STATUS write (R86, R157, R158). A word with both W1C bits fits the rows CLRDONE and CLROVR
alike and means the same in both; it is read as CLRDONE with OVR set (log entry 11). -/
def decodeStatus (d : Word) : Except Reject Instr :=
  if d.getLsbD 1 then .ok (.clrDone (d.getLsbD 3))
  else if d.getLsbD 3 then .ok (.clrOvr false)
  else .error .statusNoAction

/-- The instruction an access carries, or why it carries none (R59, R84, R86). -/
def decode (x : Access) : Except Reject Instr :=
  if x.refused then .error .busError
  else match x with
    | .read _ _ => .error .isRead
    | .write off _ _ d =>
      match placeOf off with
      | .cmd => .ok (decodeCmd d)
      | .ctrl => .ok (decodeCtrl d)
      | .status => decodeStatus d
      | .opA _ | .opB _ => .error .operandWord
      | .id | .resZ _ | .reserved => .error .ignoredOffset

/-- The word of a command: RSVD zero, then MSEL, then OP (R80). -/
def commandWord (op : Op) (msel : MSel) : Word := (0#27 ++ msel.bit ++ op.code : BitVec 32)

/-- The data word an instruction is written with: the command words of R88, the control words of R86
with every ignored bit zero. -/
def encodeWord : Instr → Word
  | .montmulP => commandWord .montmul .p
  | .montmulN => commandWord .montmul .n
  | .tomontP => commandWord .tomont .p
  | .tomontN => commandWord .tomont .n
  | .frommontP => commandWord .frommont .p
  | .frommontN => commandWord .frommont .n
  | .modmulP => commandWord .modmul .p
  | .modmulN => commandWord .modmul .n
  | .illegalCmd d => d
  | .srst => 0x00000002#32
  | .ieWrite ie => (0#31 ++ BitVec.ofBool ie : BitVec 32)
  | .clrDone ovr => (0#28 ++ BitVec.ofBool ovr ++ 0b010#3 : BitVec 32)
  | .clrOvr done => (0#28 ++ 0b10#2 ++ BitVec.ofBool done ++ 0#1 : BitVec 32)

/-- The offset an instruction is written to (R80, R86). -/
def encodeOffset : Instr → Nat
  | .montmulP | .montmulN | .tomontP | .tomontN | .frommontP | .frommontN
  | .modmulP | .modmulN | .illegalCmd _ => 0x00C
  | .srst | .ieWrite _ => 0x004
  | .clrDone _ | .clrOvr _ => 0x008

/-- The host step that stands for an instruction: `W off, word` (R88, R89). -/
def encode (i : Instr) : Access := .w (encodeOffset i) (encodeWord i)

/-- The access a word of spec/opcode_table.json stands for. The table numbers the bits of the data
word and gives no offset: a full 32-bit word is a CMD row's; a shorter one is a control row's, a
STATUS write when its bit 3 is set and a CTRL write otherwise (log entry 10). -/
def tableAccess (nbits w : Nat) : Access :=
  if 32 ≤ nbits then .w 0x00C (BitVec.ofNat 32 w)
  else if w / 8 % 2 = 1 then .w 0x008 (BitVec.ofNat 32 w)
  else .w 0x004 (BitVec.ofNat 32 w)

/-- What the decoder reads from a word of spec/opcode_table.json. -/
def decodeTableWord (nbits w : Nat) : Option Instr :=
  match decode (tableAccess nbits w) with
  | .ok i => some i
  | .error _ => none

end Sys2Proof
end

