-- ==== Sys2Proof/Machine/State.lean ====
section
/-! DEFINITION. The machine's state as plain data: the record of spec 10_state.md R20, the timed
refinement's CNT (R31), and the block's interface (the rst_n pin, the inputs still to come, the last
bus answer). Reset values from R45. -/

namespace Sys2Proof.Machine

/-- The answer of one access (R50): a read's data, a write's `ok`, or a refusal (R53). -/
inductive Response where
  | ok
  | data (value : Word)
  | busError
  deriving DecidableEq, Repr

/-- What can happen to the block next (R12, R65). The order of a list of inputs is the single total
order of transitions that R65 speaks of (log entry 1). -/
inductive Input where
  /-- The Host makes one access (R50). -/
  | bus (x : Access)
  /-- The Engine gets a turn: the untimed model's completion (R12, R150). -/
  | engine
  /-- One edge of clk, for the timed refinement's countdown (R31). -/
  | clock
  /-- The pin rst_n is driven low (`true`, asserted) or released (`false`) (R250). -/
  | rst (low : Bool)
  deriving DecidableEq, Repr

/-- The state. The first ten fields are the record of R20. -/
structure State where
  /-- First operand (R21). -/
  A : Elem
  /-- Second operand (R22). -/
  B : Elem
  /-- Result of the last completed command (R23). -/
  Z : Elem
  /-- Interrupt enable (R25). -/
  IE : Bool
  /-- A command is accepted and not yet completed (R26). -/
  BUSY : Bool
  /-- The last command ended, by completion or by error (R26). -/
  DONE : Bool
  /-- The last command ended with an error (R26). -/
  ERR : Bool
  /-- An access was dropped because BUSY was 1; sticky (R26). -/
  OVR : Bool
  /-- Error code of the last command (R201). -/
  ERRCODE : BitVec 4
  /-- OP and MSEL of the last command written while idle: {MSEL, OP} (R29). -/
  CMDR : BitVec 5
  /-- Remaining clock cycles of the command in flight (R31, timed refinement; hidden). -/
  CNT : Nat
  /-- The level of rst_n: true while it is asserted, low (R250). -/
  rstLow : Bool
  /-- The inputs still to come, the next one first (R50, R65). -/
  pending : List Input
  /-- The answer of the last access; none before the first (R50). -/
  resp : Option Response
  /-- The model's own counter of free values (R250, log entry 4). -/
  freeIdx : Nat
  deriving DecidableEq, Repr

/-- Why the machine stops. -/
inductive Fault where
  /-- Raised by the Engine's completion step when BUSY = 1 and CMDR names no operation: R151 gives no
  result there. SAFE: no run reaches such a state (R30 invariant 3). -/
  | engineNoOperation
  deriving DecidableEq, Repr

/-- Why an instruction is refused. -/
inductive Refusal where
  /-- Raised by exec's arm of an instruction that has no meaning yet. SAFE: the machine stops. No arm
  raises it. -/
  | notModelled (mnemonic : String)
  deriving DecidableEq, Repr

/-- The block right after reset: every field of R20 at the value of R45, CNT 0, rst_n released,
nothing pending and no access answered yet. -/
def State.reset : State where
  A := 0#256
  B := 0#256
  Z := 0#256
  IE := false
  BUSY := false
  DONE := false
  ERR := false
  OVR := false
  ERRCODE := 0#4
  CMDR := 0#5
  CNT := 0
  rstLow := false
  pending := []
  resp := none
  freeIdx := 0

end Sys2Proof.Machine
end

