-- ==== Sys2Proof/Machine/Flags.lean ====
section
/-! DEFINITION. The status bits: how STATUS reads (spec 10_state.md R26), the irq output (R28), the
clears of 42_control.md R157 and R158, and the error codes of 60_exceptions.md R201. -/

namespace Sys2Proof.Machine

/-- E_OPCODE (R201). -/
def eOpcode : BitVec 4 := 1#4

/-- E_RANGE_A (R201). -/
def eRangeA : BitVec 4 := 2#4

/-- E_RANGE_B (R201). -/
def eRangeB : BitVec 4 := 3#4

/-- What a read of STATUS returns: {0[23:0], ERRCODE, OVR, ERR, DONE, BUSY} (R26). -/
def State.statusWord (s : State) : Word :=
  (0#24 ++ s.ERRCODE ++ BitVec.ofBool s.OVR ++ BitVec.ofBool s.ERR ++ BitVec.ofBool s.DONE
    ++ BitVec.ofBool s.BUSY : BitVec 32)

/-- The output irq = IE AND DONE, active high and level-sensitive (R28, R204). -/
def State.irq (s : State) : Bool := s.IE && s.DONE

/-- The level the block drives on an interrupt line of the platform: its own line alone carries irq
(R204; log entry 17). -/
def State.irqOnLine (s : State) (line : Nat) : Bool := decide (line = Config.irqLine) && s.irq

/-- DONE, ERR and ERRCODE are cleared together (R140, R157). -/
def State.clearStatus (s : State) : State := { s with DONE := false, ERR := false, ERRCODE := 0#4 }

/-- OVR is cleared (R158). -/
def State.clearOvr (s : State) : State := { s with OVR := false }

/-- IE takes a value (R156). -/
def State.setIE (s : State) (v : Bool) : State := { s with IE := v }

/-- StatusWrite (R157, R158): each W1C bit acts by itself, both in one step. -/
def State.statusWrite (s : State) (done ovr : Bool) : State :=
  let t := if done then s.clearStatus else s
  if ovr then t.clearOvr else t

end Sys2Proof.Machine
end

