-- ==== Sys2Proof/Machine/Operands.lean ====
section
/-! DEFINITION. Operand forms and arithmetic: the words of a 256-bit register (spec 20_memory.md
R55), the modulus a command selects (R82), the Montgomery product and the results of the commands
(40_montgomery.md R100 to R107, 41_modmul.md R130, 42_control.md R151), external byte strings (R56)
and bus addresses (R50). -/

namespace Sys2Proof.Machine

/-- Word i of a 256-bit register: bits [32i+31:32i] (R55). -/
def elemWord (x : Elem) (i : Nat) : Word := x.extractLsb' (32 * i) 32

/-- The register with word i replaced and its other words unchanged (R55, R60). -/
def setElemWord (x : Elem) (i : Nat) (d : Word) : Elem :=
  (x &&& ~~~((BitVec.allOnes 32).setWidth 256 <<< (32 * i))) ||| (d.setWidth 256 <<< (32 * i))

/-- Mod(msel) (R11, R82). -/
def modulus : MSel → Nat
  | .p => Config.modP
  | .n => Config.modN

/-- The operation an OP field names, if any (R81). -/
def opOfCode (c : BitVec 4) : Option Op :=
  if c = 1#4 then some .montmul
  else if c = 2#4 then some .tomont
  else if c = 3#4 then some .frommont
  else if c = 4#4 then some .modmul
  else none

/-- The modulus an MSEL bit selects (R82). -/
def mselOfBit (b : Bool) : MSel := if b then .n else .p

/-- Whether the command reads, and so checks, B (R81, R140). -/
def readsB : Op → Bool
  | .montmul | .modmul => true
  | .tomont | .frommont => false

/-- inv_m(R), the inverse of R = 2^256 modulo an odd m (R10, R100): (m + 1) / 2 is the inverse of 2
(log entry 19). -/
def invR (m : Nat) : Nat := ((m + 1) / 2) ^ Config.rBits % m

/-- RR_m = R² mod m (R103). -/
def rr (m : Nat) : Nat := Config.radix ^ 2 % m

/-- MontMul_m(a, b) = (a · b · inv_m(R)) mod m, of the exact product (R100). -/
def montMul (m a b : Nat) : Nat := a * b * invR m % m

/-- The result function (R151), with the exact 512-bit product (R130) and full reduction (R102). -/
def result (op : Op) (m a b : Nat) : Nat :=
  match op with
  | .montmul => montMul m a b
  | .tomont => montMul m a (rr m)
  | .frommont => montMul m a 1
  | .modmul => a * b % m

/-- The value of an external byte string, most significant byte first (R56; log entry 16). -/
def valueOfBytes (e : List (BitVec 8)) : Nat := e.foldl (fun v x => v * 256 + x.toNat) 0

/-- The byte offset at which an access with a bus address reaches the block: the address less BASE,
and none below BASE (R50; log entry 7). -/
def offsetOfAddress (addr : Nat) : Option Nat :=
  if Config.base ≤ addr then some (addr - Config.base) else none

end Sys2Proof.Machine
end

