-- ==== Sys2Proof/Machine/Ops.lean ====
section
/-! DEFINITION. The shared operations: the error completion, which is this block's exception entry
(spec 60_exceptions.md R200, R208), command acceptance (42_control.md R140, R160), the Engine's
completion (R150), reset (70_reset_and_hazards.md R250), register reads (20_memory.md R58) and
operand word writes (R60). -/

namespace Sys2Proof.Machine

/-- The access is answered (R50). -/
def State.respond (s : State) (r : Response) : State := { s with resp := some r }

/-- A dropped write: OVR <- 1, nothing else changes (R160). -/
def State.dropWrite (s : State) : State := { s with OVR := true }

/-- CMDR <- d[4:0] (R29, R140). -/
def State.recordCmd (s : State) (c : BitVec 5) : State := { s with CMDR := c }

/-- Fail(c), the error completion and the block's only exception entry: no context is saved, nothing
is jumped to (R200, R208). The return from it is `State.clearStatus` (R209). -/
def State.fail (s : State) (c : BitVec 4) : State :=
  { s with DONE := true, ERR := true, ERRCODE := c }

/-- The command is accepted: BUSY <- 1, CNT <- LAT(op) (R140). -/
def State.accept (s : State) (op : Op) : State := { s with BUSY := true, CNT := Config.lat op.code }

/-- The reset of the block's own fields (R250, R45). -/
def State.resetBlock (s : State) : State :=
  { s with
    A := 0#256, B := 0#256, Z := 0#256, IE := false, BUSY := false, DONE := false, ERR := false,
    OVR := false, ERRCODE := 0#4, CMDR := 0#5, CNT := 0 }

/-- CmdWrite of a legal word (R140): the checks in the order of R205, BUSY first, then A, then B when
the command reads it. -/
def State.issue (s : State) (op : Op) (msel : MSel) : State :=
  if s.BUSY then s.dropWrite
  else
    let t := (s.recordCmd (msel.bit ++ op.code)).clearStatus
    if modulus msel ≤ s.A.toNat then t.fail eRangeA
    else if readsB op && decide (modulus msel ≤ s.B.toNat) then t.fail eRangeB
    else t.accept op

/-- CmdWrite of an illegal word (R140, R159). -/
def State.issueIllegal (s : State) (d : Word) : State :=
  if s.BUSY then s.dropWrite
  else ((s.recordCmd (d.extractLsb' 0 5)).clearStatus).fail eOpcode

/-- Completion's writes: Z in one step, BUSY <- 0, DONE <- 1 (R150, R152); no cycles remain. -/
def State.finish (s : State) (z : Nat) : State :=
  { s with Z := BitVec.ofNat 256 z, BUSY := false, DONE := true, CNT := 0 }

/-- Complete(), run with BUSY = 1: the operation and the modulus come from CMDR (R150, R151). A CMDR
that names no operation stops it (log entry 13). -/
def complete (s : State) : Host.Outcome State Fault Refusal :=
  match opOfCode (s.CMDR.extractLsb' 0 4) with
  | some op =>
    .next (s.finish (result op (modulus (mselOfBit (s.CMDR.getLsbD 4))) s.A.toNat s.B.toNat))
  | none => .fault .engineNoOperation

/-- The Engine's turn: enabled if and only if BUSY = 1 (R12, R150). -/
def engineStep (s : State) : Host.Outcome State Fault Refusal :=
  if s.BUSY then complete s else .next s

/-- One clock edge of the timed refinement: CNT counts down while BUSY = 1, and the completion fires
when it reaches 0 (R31). -/
def clockEdge (s : State) : Host.Outcome State Fault Refusal :=
  if s.BUSY then
    if s.CNT ≤ 1 then complete { s with CNT := 0 } else .next { s with CNT := s.CNT - 1 }
  else .next s

/-- BusRead(off) of an access that is not refused (R58). -/
def State.busRead (s : State) (off : Nat) : Word :=
  match placeOf off with
  | .id => Config.idValue
  | .ctrl => (BitVec.ofBool s.IE).setWidth 32
  | .status => s.statusWord
  | .cmd => s.CMDR.setWidth 32
  | .opA i => elemWord s.A i
  | .opB i => elemWord s.B i
  | .resZ i => elemWord s.Z i
  | .reserved => 0#32

/-- OperandWrite(A, i, d) (R60). -/
def State.writeA (s : State) (i : Nat) (d : Word) : State :=
  if s.BUSY then s.dropWrite else { s with A := setElemWord s.A i d }

/-- OperandWrite(B, i, d) (R60). -/
def State.writeB (s : State) (i : Nat) (d : Word) : State :=
  if s.BUSY then s.dropWrite else { s with B := setElemWord s.B i d }

/-- BusWrite of an access that carries no instruction: an operand word (R60), or nothing (R26, R61). -/
def State.plainWrite (s : State) (off : Nat) (d : Word) : State :=
  match placeOf off with
  | .opA i => s.writeA i d
  | .opB i => s.writeB i d
  | .id | .ctrl | .status | .cmd | .resZ _ | .reserved => s

/-- The answer of an access made while rst_n is asserted: a read's value is free, and so is whether
any other access is acknowledged (R250, D17; log entry 4). -/
def answerInReset (x : Access) (n : Nat) : Response :=
  match x with
  | .read _ _ =>
    if x.refused && !Config.resetAcks n then .busError else .data (Config.resetReadData n)
  | .write _ _ _ _ => if Config.resetAcks n then .ok else .busError

/-- How the host sees an answer: BUSERR_REPORT decides whether a BusError reaches it (R53, D31;
log entry 6). -/
def hostSees (r : Response) : Option Response :=
  match r with
  | .busError => if Config.busErrorFaults then some .busError else none
  | .ok | .data _ => some r

end Sys2Proof.Machine
end

