-- ==== Sys2Proof/Machine/Control.lean ====
section
/-! DEFINITION. Illegal command words (spec 42_control.md R159) and the control actions SRST, IE
write, DONE clear and OVR clear (R155 to R158). -/

namespace Sys2Proof.Machine

/-- ILLEGAL_CMD: CMDR <- d[4:0], then Fail(1), E_OPCODE; dropped while BUSY = 1 (R159, R160). -/
def execIllegalCmd (d : Word) (s : State) : Host.Outcome State Fault Refusal :=
  .next ((s.issueIllegal d).respond .ok)

/-- SRST: the soft reset, whatever BUSY holds (R155). -/
def execSrst (s : State) : Host.Outcome State Fault Refusal :=
  .next (s.resetBlock.respond .ok)

/-- IE_WRITE: IE <- d[0], whatever BUSY holds (R156). -/
def execIeWrite (ie : Bool) (s : State) : Host.Outcome State Fault Refusal :=
  .next ((s.setIE ie).respond .ok)

/-- CLRDONE: DONE, ERR and ERRCODE <- 0, and OVR <- 0 when bit 3 is 1 too (R157, R158). -/
def execClrDone (ovr : Bool) (s : State) : Host.Outcome State Fault Refusal :=
  .next ((s.statusWrite true ovr).respond .ok)

/-- CLROVR: OVR <- 0, and DONE, ERR and ERRCODE <- 0 when bit 1 is 1 too (R158, R157). -/
def execClrOvr (done : Bool) (s : State) : Host.Outcome State Fault Refusal :=
  .next ((s.statusWrite done true).respond .ok)

end Sys2Proof.Machine
end

