-- ==== Sys2Proof/Machine/ModMul.lean ====
section
/-! DEFINITION. The plain modular multiply (spec 41_modmul.md R130): the CMD write, R140. -/

namespace Sys2Proof.Machine

/-- MODMUL.P (R130). -/
def execModmulP (s : State) : Host.Outcome State Fault Refusal :=
  .next ((s.issue .modmul .p).respond .ok)

/-- MODMUL.N (R130). -/
def execModmulN (s : State) : Host.Outcome State Fault Refusal :=
  .next ((s.issue .modmul .n).respond .ok)

end Sys2Proof.Machine
end

