-- ==== Sys2Proof/Machine/Montgomery.lean ====
section
/-! DEFINITION. The Montgomery commands (spec 40_montgomery.md R105, R106, R107): each meaning is the
CMD write, R140; the Engine's completion of the accepted command is `complete` (R150). -/

namespace Sys2Proof.Machine

/-- MONTMUL.P (R105). -/
def execMontmulP (s : State) : Host.Outcome State Fault Refusal :=
  .next ((s.issue .montmul .p).respond .ok)

/-- MONTMUL.N (R105). -/
def execMontmulN (s : State) : Host.Outcome State Fault Refusal :=
  .next ((s.issue .montmul .n).respond .ok)

/-- TOMONT.P (R106). -/
def execTomontP (s : State) : Host.Outcome State Fault Refusal :=
  .next ((s.issue .tomont .p).respond .ok)

/-- TOMONT.N (R106). -/
def execTomontN (s : State) : Host.Outcome State Fault Refusal :=
  .next ((s.issue .tomont .n).respond .ok)

/-- FROMMONT.P (R107). -/
def execFrommontP (s : State) : Host.Outcome State Fault Refusal :=
  .next ((s.issue .frommont .p).respond .ok)

/-- FROMMONT.N (R107). -/
def execFrommontN (s : State) : Host.Outcome State Fault Refusal :=
  .next ((s.issue .frommont .n).respond .ok)

end Sys2Proof.Machine
end

