-- ==== Sys2Proof/Machine/Dispatch.lean ====
section
/-! DEFINITION. One arm per instruction of spec/opcode_table.json. -/

namespace Sys2Proof.Machine

def exec (i : Instr) (s : State) : Host.Outcome State Fault Refusal :=
  match i with
  | .montmulP => Sys2Proof.Machine.execMontmulP s
  | .montmulN => Sys2Proof.Machine.execMontmulN s
  | .tomontP => Sys2Proof.Machine.execTomontP s
  | .tomontN => Sys2Proof.Machine.execTomontN s
  | .frommontP => Sys2Proof.Machine.execFrommontP s
  | .frommontN => Sys2Proof.Machine.execFrommontN s
  | .modmulP => Sys2Proof.Machine.execModmulP s
  | .modmulN => Sys2Proof.Machine.execModmulN s
  | .illegalCmd d => Sys2Proof.Machine.execIllegalCmd d s
  | .srst => Sys2Proof.Machine.execSrst s
  | .ieWrite ie => Sys2Proof.Machine.execIeWrite ie s
  | .clrDone ovr => Sys2Proof.Machine.execClrDone ovr s
  | .clrOvr done => Sys2Proof.Machine.execClrOvr done s

end Sys2Proof.Machine
end

