-- ==== Sys2Proof/Machine/Port.lean ====
section
/-! DEFINITION. What each input does to the block: an access at the port (spec 20_memory.md R50, R53,
R58, R59), an Engine turn, a clock edge, the reset pin (00_scope.md R12, 70_reset_and_hazards.md
R250). `step` calls these. -/

namespace Sys2Proof.Machine

/-- One access with rst_n released: refused (R53), or performed at once and answered (R58, R59). A
write that carries an instruction runs its meaning. -/
def access (x : Access) (s : State) : Host.Outcome State Fault Refusal :=
  match decode x with
  | .ok i => exec i s
  | .error .busError => .next (s.respond .busError)
  | .error _ =>
    match x with
    | .read off _ => .next (s.respond (.data (s.busRead off)))
    | .write off _ _ d => .next ((s.plainWrite off d).respond .ok)

/-- The inputs while rst_n is asserted: the block's fields are held at their reset values, an access
has no effect and a free answer, and the Engine and the clock do nothing (R250). -/
def inputInReset (x : Input) (s : State) : State :=
  match x with
  | .bus a =>
    { s.resetBlock with resp := some (answerInReset a s.freeIdx), freeIdx := s.freeIdx + 1 }
  | .engine | .clock => s.resetBlock
  | .rst low => { s.resetBlock with rstLow := low }

/-- One input (R12). -/
def input (x : Input) (s : State) : Host.Outcome State Fault Refusal :=
  if s.rstLow then .next (inputInReset x s)
  else match x with
    | .bus a => access a s
    | .engine => engineStep s
    | .clock => clockEdge s
    | .rst low => .next (if low then { s.resetBlock with rstLow := true } else s)

/-- With no input pending the block is left to itself: the Engine completes a command in flight (weak
fairness, R12; log entry 2), and an idle block stays as it is. -/
def quietStep (s : State) : Host.Outcome State Fault Refusal :=
  if s.rstLow then .next s.resetBlock else engineStep s

end Sys2Proof.Machine
end

