-- ==== Sys2Proof/Machine/Step.lean ====
section
/-! DEFINITION. The machine's step: the next pending input, or the Engine's own turn when none is
pending (spec 00_scope.md R12, 20_memory.md R65). -/

namespace Sys2Proof.Machine

/-- One transition of the block (R65). -/
def step (s : State) : Host.Outcome State Fault Refusal :=
  match s.pending with
  | [] => quietStep s
  | x :: rest => input x { s with pending := rest }

/-- The state in which the very next step performs the write that a word of spec/opcode_table.json
stands for: the write is the next pending input, and rst_n is released (log entry 14). -/
def State.withFetchWord (s : State) (nbits w : Nat) : State :=
  { s with pending := .bus (tableAccess nbits w) :: s.pending, rstLow := false }

end Sys2Proof.Machine
end

