-- ==== Sys2Proof/Machine/Cios.lean ====
section
/-! DEFINITION. The reference algorithm of spec 40_montgomery.md R104, word-serial Montgomery
multiplication with 32-bit words. It is not normative and no step runs it: the block's result is
`montMul` (R100); that the two agree is an obligation. -/

namespace Sys2Proof.Machine

/-- The word base 2^w of R104, w = 32. -/
def wordBase : Nat := 2 ^ 32

/-- The s = 8 words of a value, least significant first (R104, R55). -/
def wordsOf (v : Nat) : List Nat := (List.range 8).map (fun i => v / wordBase ^ i % wordBase)

/-- The value of a list of words, least significant first. -/
def valueOf : List Nat → Nat
  | [] => 0
  | w :: ws => w + wordBase * valueOf ws

/-- The inner loops of R104: (C, t[j]) <- t[j] + x · y_j + C along two lists of words. Answers the new
words and the last carry. -/
def mulAddRow (x : Nat) : List Nat → List Nat → Nat → List Nat × Nat
  | t :: ts, y :: ys, c =>
    let v := t + x * y + c
    let rest := mulAddRow x ts ys (v / wordBase)
    (v % wordBase :: rest.1, rest.2)
  | _, _, c => ([], c)

/-- The accumulator between two rounds of the outer loop: t[0..s-1] and t[s]. -/
structure CiosAcc where
  low : List Nat
  top : Nat
  deriving DecidableEq, Repr

/-- One round of the outer loop of R104, for the word `x` = a_i: add x · b, then q · m, which makes
the lowest word 0, and drop that word. -/
def ciosRound (mWords bWords : List Nat) (mInv : Nat) (t : CiosAcc) (x : Nat) : CiosAcc :=
  let row := mulAddRow x t.low bWords 0
  let sum := t.top + row.2
  let q := row.1.headD 0 * mInv % wordBase
  let red := mulAddRow q row.1 mWords 0
  let last := sum % wordBase + red.2
  { low := red.1.tail ++ [last % wordBase], top := sum / wordBase + last / wordBase }

/-- m' of R104, minus the inverse of an odd m modulo 2^w: five doublings of the precision of the
inverse modulo 2. -/
def minusInvWord (m : Nat) : Nat :=
  let improve := fun x => x * (2 + (wordBase - m * x % wordBase)) % wordBase
  wordBase - improve (improve (improve (improve (improve 1))))

/-- MontMulCIOS(a, b, m) (R104). -/
def montMulCios (m a b : Nat) : Nat :=
  let t := (wordsOf a).foldl (ciosRound (wordsOf m) (wordsOf b) (minusInvWord m))
    { low := [0, 0, 0, 0, 0, 0, 0, 0], top := 0 }
  let u := valueOf t.low + wordBase ^ 8 * t.top
  if m ≤ u then u - m else u

end Sys2Proof.Machine
end

