-- ==== Sys2Proof/Machine/HostSyntax.lean ====
section
/-! DEFINITION. The host's notation (spec 30_encoding.md R88, R90): the mnemonics and the
pseudo-instructions with their expansion into host steps, and how a host carries an expansion out. -/

namespace Sys2Proof.Machine

/-- The command a mnemonic names (R88). -/
def commandOfMnemonic (name : String) : Option Instr :=
  match name with
  | "MONTMUL.P" => some .montmulP
  | "MONTMUL.N" => some .montmulN
  | "TOMONT.P" => some .tomontP
  | "TOMONT.N" => some .tomontN
  | "FROMMONT.P" => some .frommontP
  | "FROMMONT.N" => some .frommontN
  | "MODMUL.P" => some .modmulP
  | "MODMUL.N" => some .modmulN
  | _ => none

/-- The pseudo-instructions (R90). -/
inductive Pseudo where
  | lda (v : Elem) | ldb (v : Elem) | rdz | wait
  | clrdone | clrovr | srst | ien | idis
  deriving DecidableEq, Repr

/-- What a pseudo-instruction stands for (R90). -/
inductive Expansion where
  /-- Host steps, in order. -/
  | steps (l : List Access)
  /-- A spin loop: repeat `R off` until one bit of what it returns is 0. -/
  | repeatUntilZero (off bit : Nat)
  deriving DecidableEq, Repr

/-- The eight writes that fill a 256-bit register at a word base, low word first (R90). -/
def loadAt (base : Nat) (v : Elem) : List Access :=
  (List.range 8).map (fun i => Access.w (base + 4 * i) (elemWord v i))

/-- The expansion of a pseudo-instruction (R90). -/
def expandPseudo : Pseudo → Expansion
  | .lda v => .steps (loadAt 0x020 v)
  | .ldb v => .steps (loadAt 0x040 v)
  | .rdz => .steps ((List.range 8).map (fun i => Access.r (0x060 + 4 * i)))
  | .wait => .repeatUntilZero 0x008 0
  | .clrdone => .steps [Access.w 0x008 0x00000002#32]
  | .clrovr => .steps [Access.w 0x008 0x00000008#32]
  | .srst => .steps [Access.w 0x004 0x00000002#32]
  | .ien => .steps [Access.w 0x004 0x00000001#32]
  | .idis => .steps [Access.w 0x004 0x00000000#32]

/-- The host steps of an expansion that is no loop. -/
def Expansion.straight : Expansion → List Access
  | .steps l => l
  | .repeatUntilZero _ _ => []

/-- The loop's exit condition on the answer of a poll: the bit reads 0 (R90). -/
def pollEnds (bit : Nat) : Response → Bool
  | .data v => !v.getLsbD bit
  | .ok | .busError => false

/-- The access the host makes next, given the answers so far, the newest first; none when the
expansion is carried out. -/
def Expansion.next (e : Expansion) (answers : List Response) : Option Access :=
  match e with
  | .steps l => l[answers.length]?
  | .repeatUntilZero off bit =>
    match answers with
    | [] => some (.r off)
    | last :: _ => if pollEnds bit last then none else some (.r off)

/-- A host at work on an expansion: the block, and the answers so far, the newest first. -/
structure HostRun where
  block : State
  answers : List Response
  deriving DecidableEq, Repr

/-- The state in which the access x comes before everything pending. -/
def State.offer (s : State) (x : Access) : State := { s with pending := .bus x :: s.pending }

/-- The host carries an expansion out, at most one access for each number of the list: the number says
how many transitions the block makes before that access reaches the port (R12, R65). -/
def Expansion.perform (e : Expansion) : List Nat → HostRun → Host.Outcome HostRun Fault Refusal
  | [], r => .next r
  | gap :: gaps, r =>
    match e.next r.answers with
    | none => .next r
    | some x =>
      match (Sys2Proof.core.run gap r.block : Host.Outcome State Fault Refusal) with
      | .next t =>
        match step (t.offer x) with
        | .next u => e.perform gaps { block := u, answers := u.resp.toList ++ r.answers }
        | .fault f => .fault f
        | .refused f => .refused f
      | .fault f => .fault f
      | .refused f => .refused f

/-- Z as the host puts it together from the eight words of RDZ, low word first (R90). -/
def joinWords : List Word → Nat
  | [] => 0
  | w :: ws => w.toNat + 2 ^ 32 * joinWords ws

end Sys2Proof.Machine
end

