-- ==== Sys2Proof/Safety.lean ====
section
/-! DEFINITION. The invariants of the machine: those of spec 10_state.md R30, and the model's own
about CNT, rst_n and Z. A safe run is one along which they hold and no step stops. -/

namespace Sys2Proof.Machine

/-- R30 invariant 1. -/
abbrev State.BusyStatusClear (s : State) : Prop :=
  s.BUSY = true → s.DONE = false ∧ s.ERR = false ∧ s.ERRCODE = 0#4

/-- R30 invariant 2. -/
abbrev State.ErrMatchesCode (s : State) : Prop :=
  (s.ERR = true ↔ s.ERRCODE ≠ 0#4) ∧ (s.ERR = true → s.DONE = true)

/-- R30 invariant 3. -/
abbrev State.CommandValid (s : State) : Prop :=
  s.BUSY = true →
    s.CMDR.extractLsb' 0 4 ∈ [1#4, 2#4, 3#4, 4#4] ∧
    s.A.toNat < modulus (mselOfBit (s.CMDR.getLsbD 4)) ∧
    (s.CMDR.extractLsb' 0 4 ∈ [1#4, 4#4] → s.B.toNat < modulus (mselOfBit (s.CMDR.getLsbD 4)))

/-- R30 invariant 4. -/
abbrev State.CodeKnown (s : State) : Prop := s.ERRCODE ∈ [0#4, 1#4, 2#4, 3#4]

/-- The four invariants of R30. -/
abbrev State.R30 (s : State) : Prop :=
  s.BusyStatusClear ∧ s.ErrMatchesCode ∧ s.CommandValid ∧ s.CodeKnown

/-- Cycles remain exactly while a command is in flight (from R31, R140, R150; log entry 3). -/
abbrev State.CountMatches (s : State) : Prop := s.BUSY = true ↔ 0 < s.CNT

/-- The block's own fields all at the values of R45. -/
abbrev State.AtReset (s : State) : Prop :=
  s.A = 0#256 ∧ s.B = 0#256 ∧ s.Z = 0#256 ∧ s.IE = false ∧ s.BUSY = false ∧ s.DONE = false ∧
    s.ERR = false ∧ s.OVR = false ∧ s.ERRCODE = 0#4 ∧ s.CMDR = 0#5 ∧ s.CNT = 0

/-- The next input is the access x, made with rst_n released. -/
abbrev State.Offers (s : State) (x : Access) : Prop :=
  s.rstLow = false ∧ s.pending.head? = some (.bus x)

/-- The next step is a reset: rst_n is asserted already, the next input asserts it, or the next access
is an SRST write (R250, R155). -/
abbrev State.ResetDue (s : State) : Prop :=
  s.rstLow = true ∨ s.pending.head? = some (.rst true) ∨
    ∃ d : Word, s.Offers (Access.w 0x004 d) ∧ d.getLsbD 1 = true

/-- While rst_n is asserted the block is held at reset (R250). -/
abbrev State.HeldInReset (s : State) : Prop := s.rstLow = true → s.AtReset

/-- Z is a fully reduced residue: below MOD_P, the larger of the two moduli (from R102, R23). -/
abbrev State.ResultReduced (s : State) : Prop := s.Z.toNat < Config.modP

/-- The invariant every step keeps. -/
abbrev State.Inv (s : State) : Prop :=
  s.R30 ∧ s.CountMatches ∧ s.HeldInReset ∧ s.ResultReduced

/-- The state a command write leaves when the command is accepted, with {MSEL, OP} = c (R140): the
words in which the statements give it. -/
def State.accepted (s : State) (c : BitVec 5) : State :=
  { s with
    CMDR := c, BUSY := true, DONE := false, ERR := false, ERRCODE := 0#4,
    CNT := Config.lat (c.extractLsb' 0 4), resp := some .ok }

/-- The state a command write leaves when it ends in Fail(e), with d[4:0] = c (R140, R200). -/
def State.failed (s : State) (c : BitVec 5) (e : BitVec 4) : State :=
  { s with CMDR := c, DONE := true, ERR := true, ERRCODE := e, resp := some .ok }

/-- The state a write leaves when it is dropped (R160). -/
def State.dropped (s : State) : State := { s with OVR := true, resp := some .ok }

/-- The state the Engine leaves when it completes a command with result z (R150, R152). -/
def State.completed (s : State) (z : Elem) : State :=
  { s with Z := z, BUSY := false, DONE := true, CNT := 0 }

/-- The state with the first `n` pending inputs taken away. -/
def State.later (s : State) (n : Nat) : State := { s with pending := s.pending.drop n }

/-- A step is safe when it answers a next state that meets the invariant. -/
def State.SafeStep (s : State) : Prop := ∃ t, step s = .next t ∧ t.Inv

end Sys2Proof.Machine
end

