-- ==== Sys2Proof/WellFormed.lean ====
section
/-! DEFINITION. Which instruction terms stand for a word of the opcode table in the decoder's own
spelling, and which accesses the port performs (spec 20_memory.md R53, 30_encoding.md R84, R87). -/

namespace Sys2Proof

/-- The eight legal command words (R84, R88). -/
def legalCommandWords : List Word :=
  [0x01#32, 0x02#32, 0x03#32, 0x04#32, 0x11#32, 0x12#32, 0x13#32, 0x14#32]

/-- An ILLEGAL_CMD term carries an illegal word (R87), and a CLROVR term leaves bit 1 clear, since a
word with both bits is spelled CLRDONE (log entry 11). Every other term is well-formed. -/
def Instr.wf : Instr → Bool
  | .illegalCmd d => !legalCommandWords.contains d
  | .clrOvr done => !done
  | .montmulP | .montmulN | .tomontP | .tomontN | .frommontP | .frommontN
  | .modmulP | .modmulN | .srst | .ieWrite _ | .clrDone _ => true

/-- The port performs the access (R53, R57). -/
def Access.wf (x : Access) : Bool := !x.refused

end Sys2Proof
end

