-- ==== Sys2Proof/Certificates/Slice0/Obligations.lean ====
section
/-! DEFINITION. The statements for the provers, grouped as the spec's files are. -/

open Sys2Proof Sys2Proof.Machine

/-! ## 30_encoding.md -/

/-- Decoding an encoded well-formed instruction gives it back, with every operand. -/
def Obligations.DecodeOfEncode : Prop :=
  ∀ i : Instr, i.wf = true → decode (encode i) = .ok i

/-- R84: exactly the eight listed words decode to a command, each to its own; every other word is
illegal and kept whole. -/
def Obligations.ExactlyEightCommandWords : Prop :=
  ∀ d : Word, decode (Access.w 0x00C d) = .ok (
    if d = 0x01#32 then .montmulP else if d = 0x02#32 then .tomontP
    else if d = 0x03#32 then .frommontP else if d = 0x04#32 then .modmulP
    else if d = 0x11#32 then .montmulN else if d = 0x12#32 then .tomontN
    else if d = 0x13#32 then .frommontN else if d = 0x14#32 then .modmulN
    else .illegalCmd d)

/-- Whatever access decodes to an instruction, the port performs it, the instruction is well-formed,
and it is written to the access's own offset. -/
def Obligations.DecodedIsWellFormed : Prop :=
  ∀ (x : Access) (i : Instr), decode x = .ok i →
    i.wf = true ∧ x.wf = true ∧ encodeOffset i = x.off ∧ x.off ∈ [0x004, 0x008, 0x00C]

/-- A few words written out from the spec's tables (R88, R86) decode to what they stand for. -/
def Obligations.SpecWordsDecode : Prop :=
  decode (.write 0x00C 32 0b1111#4 0b00000000000000000000000000000001#32) = .ok .montmulP ∧
  decode (.write 0x00C 32 0b1111#4 0b00000000000000000000000000010010#32) = .ok .tomontN ∧
  decode (.write 0x00C 32 0b1111#4 0b00000000000000000000000000000011#32) = .ok .frommontP ∧
  decode (.write 0x00C 32 0b1111#4 0b00000000000000000000000000010100#32) = .ok .modmulN ∧
  decode (.write 0x00C 32 0b1111#4 0b00000000000000000000000000100001#32)
    = .ok (.illegalCmd 0x21#32) ∧
  decode (.write 0x004 32 0b1111#4 0b00000000000000000000000000000011#32) = .ok .srst ∧
  decode (.write 0x004 32 0b1111#4 0b00000000000000000000000000000001#32) = .ok (.ieWrite true) ∧
  decode (.write 0x008 32 0b1111#4 0b00000000000000000000000000000010#32) = .ok (.clrDone false) ∧
  decode (.write 0x008 32 0b1111#4 0b00000000000000000000000000001000#32) = .ok (.clrOvr false)

/-- The word with both W1C bits means the same in the rows CLRDONE and CLROVR, and decodes as the
former (R158; the spelling is the model's choice, log entry 11). -/
def Obligations.BothClearsOneMeaning : Prop :=
  encode (.clrOvr true) = encode (.clrDone true) ∧
  decode (encode (.clrOvr true)) = .ok (.clrDone true) ∧
  ∀ s : State, exec (.clrOvr true) s = exec (.clrDone true) s

/-! ## 20_memory.md: the port -/

/-- A step whose next input is a write that decodes to i runs exec i on the state with that input
taken away. -/
def Obligations.StepRunsDecodedInstruction : Prop :=
  ∀ (s : State) (x : Access) (i : Instr), s.Offers x → decode x = .ok i →
    step s = exec i (s.later 1)

/-- A word of the opcode table, offered by withFetchWord, is what the very next step runs (the offset
it goes to is the model's reading of the table, log entry 10). -/
def Obligations.FetchWordRuns : Prop :=
  ∀ (s : State) (nbits w : Nat) (i : Instr), decodeTableWord nbits w = some i →
    step (s.withFetchWord nbits w) = exec i { s with rstLow := false }

/-- R58: what each read returns, and that a read changes nothing but the answer, whatever BUSY holds. -/
def Obligations.ReadReturnsRegister : Prop :=
  ∀ (s : State) (off : Nat), off % 4 = 0 → off < 0x100 → s.Offers (Access.r off) →
    step s = .next { s.later 1 with resp := some (.data (
      if off = 0x000 then 0x4D4D0100#32
      else if off = 0x004 then (0#31 ++ BitVec.ofBool s.IE : BitVec 32)
      else if off = 0x008 then
        (0#24 ++ s.ERRCODE ++ BitVec.ofBool s.OVR ++ BitVec.ofBool s.ERR ++ BitVec.ofBool s.DONE
          ++ BitVec.ofBool s.BUSY : BitVec 32)
      else if off = 0x00C then (0#27 ++ s.CMDR : BitVec 32)
      else if 0x020 ≤ off ∧ off ≤ 0x03C then s.A.extractLsb' (32 * ((off - 0x020) / 4)) 32
      else if 0x040 ≤ off ∧ off ≤ 0x05C then s.B.extractLsb' (32 * ((off - 0x040) / 4)) 32
      else if 0x060 ≤ off ∧ off ≤ 0x07C then s.Z.extractLsb' (32 * ((off - 0x060) / 4)) 32
      else 0#32)) }

/-- R53: an access that is misaligned, not 32 bits wide (a write with a byte enable clear included)
or outside the window is answered BusError and changes nothing else; the platform's parameter
decides whether the host sees it. -/
def Obligations.RefusedAccessChangesNothing : Prop :=
  (∀ (s : State) (off width : Nat), (off % 4 ≠ 0 ∨ width ≠ 32 ∨ 0x100 ≤ off) →
    s.Offers (.read off width) → step s = .next { s.later 1 with resp := some .busError }) ∧
  (∀ (s : State) (off width : Nat) (lanes : BitVec 4) (d : Word),
    (off % 4 ≠ 0 ∨ width ≠ 32 ∨ lanes ≠ 0xF#4 ∨ 0x100 ≤ off) →
    s.Offers (.write off width lanes d) →
    step s = .next { s.later 1 with resp := some .busError }) ∧
  hostSees .busError = (if Config.busErrorFaults = true then some .busError else none)

/-- R60: an operand word write replaces exactly one word of A, or of B, while idle, and is dropped
with OVR while BUSY; any value may be written. -/
def Obligations.OperandWordWrite : Prop :=
  ∀ (s : State) (i : Nat) (d : Word), i < 8 →
    (s.Offers (Access.w (0x020 + 4 * i) d) →
      if s.BUSY = true then step s = .next (s.later 1).dropped
      else ∃ v : Elem, step s = .next { s.later 1 with A := v, resp := some .ok } ∧
        v.extractLsb' (32 * i) 32 = d ∧
        ∀ j < 8, j ≠ i → v.extractLsb' (32 * j) 32 = s.A.extractLsb' (32 * j) 32) ∧
    (s.Offers (Access.w (0x040 + 4 * i) d) →
      if s.BUSY = true then step s = .next (s.later 1).dropped
      else ∃ v : Elem, step s = .next { s.later 1 with B := v, resp := some .ok } ∧
        v.extractLsb' (32 * i) 32 = d ∧
        ∀ j < 8, j ≠ i → v.extractLsb' (32 * j) 32 = s.B.extractLsb' (32 * j) 32)

/-- After an operand word write of an idle block the written offset reads the written word and every
other offset of the window reads as before. -/
def Obligations.OperandWriteReadsBack : Prop :=
  ∀ (s : State) (off : Nat) (d : Word), off % 4 = 0 → 0x020 ≤ off → off < 0x060 →
    s.BUSY = false → s.Offers (Access.w off d) →
    ∃ t, step s = .next t ∧ t.busRead off = d ∧
      ∀ k, k % 4 = 0 → k < 0x100 → k ≠ off → t.busRead k = s.busRead k

/-- R61: a write to ID, to a Z word or to a reserved offset changes no state and answers ok, and a
reserved offset reads 0. -/
def Obligations.IgnoredWritesAndReservedReads : Prop :=
  ∀ (s : State) (off : Nat), off % 4 = 0 →
    (off = 0x000 ∨ (0x010 ≤ off ∧ off ≤ 0x01C) ∨ (0x060 ≤ off ∧ off ≤ 0x0FC) →
      ∀ d, s.Offers (Access.w off d) → step s = .next { s.later 1 with resp := some .ok }) ∧
    ((0x010 ≤ off ∧ off ≤ 0x01C) ∨ (0x080 ≤ off ∧ off ≤ 0x0FC) →
      s.Offers (Access.r off) → step s = .next { s.later 1 with resp := some (.data 0#32) })

/-- R56: the words of a register that holds a 32-byte big-endian string, and the spec's worked
example. -/
def Obligations.BytesToWords : Prop :=
  (∀ (e : List (BitVec 8)) (i : Nat), e.length = 32 → i < 8 →
    valueOfBytes e < 2 ^ 256 ∧
    (BitVec.ofNat 256 (valueOfBytes e)).extractLsb' (32 * i) 32 =
      (e.getD (28 - 4 * i) 0#8 ++ e.getD (29 - 4 * i) 0#8 ++ e.getD (30 - 4 * i) 0#8
        ++ e.getD (31 - 4 * i) 0#8 : BitVec 32)) ∧
  (List.range 8).map (elemWord (BitVec.ofNat 256 Config.modP)) =
    [0xFFFFFFFF#32, 0xFFFFFFFF#32, 0x00000000#32, 0xFFFFFFFF#32, 0xFFFFFFFF#32, 0xFFFFFFFF#32,
      0xFFFFFFFF#32, 0xFFFFFFFE#32]

/-- R50, R51: a bus address BASE + off reaches the block at offset off, and BASE is aligned to 0x100,
whatever the platform's BASE is: so off[1:0] of R53 is the address's own (log entry 7). -/
def Obligations.AddressReachesOffset : Prop :=
  (∀ off, offsetOfAddress (Config.base + off) = some off) ∧ Config.base % 0x100 = 0 ∧
  ∀ off, (Config.base + off) % 4 = off % 4

/-! ## 40_montgomery.md and 41_modmul.md: arithmetic -/

/-- R101: the modulus premise gives coprimality with R, an inverse of R and room in 256 bits, and both
moduli meet it. -/
def Obligations.ModulusPremiseHolds : Prop :=
  (∀ m, m % 2 = 1 → 2 ^ 255 < m → m < 2 ^ 256 →
    Nat.gcd (2 ^ 256) m = 1 ∧ (∃ y < m, 2 ^ 256 * y % m = 1) ∧ ∀ x < m, x < 2 ^ 256) ∧
  ∀ k : MSel, modulus k % 2 = 1 ∧ 2 ^ 255 < modulus k ∧ modulus k < 2 ^ 256

/-- inv_m(R) is the unique y in [0, m) with R · y ≡ 1 (mod m), for every odd modulus of R101 (R10). -/
def Obligations.InverseOfRadixUnique : Prop :=
  ∀ m, m % 2 = 1 → 2 ^ 255 < m → m < 2 ^ 256 →
    invR m < m ∧ 2 ^ 256 * invR m % m = 1 ∧ ∀ y < m, 2 ^ 256 * y % m = 1 → y = invR m

/-- R103: the built-in constants, computed from the moduli. -/
def Obligations.BuiltInConstants : Prop :=
  2 ^ 256 % modulus .p = 0x0000000100000000000000000000000000000000FFFFFFFF0000000000000001 ∧
  rr (modulus .p) = 0x0000000400000002000000010000000100000002FFFFFFFF0000000200000003 ∧
  invR (modulus .p) = 0xFFFFFFFB00000005FFFFFFFC00000002FFFFFFFD00000006FFFFFFF900000004 ∧
  2 ^ 256 % modulus .n = 0x000000010000000000000000000000008DFC2094DE39FAD4AC440BF6C62ABEDD ∧
  rr (modulus .n) = 0x1EB5E412A22B3D3B620FC84C3AFFE0D43464504ADE6FA2FA901192AF7C114F20 ∧
  invR (modulus .n) = 0x6F39132F13ABB48CA81BA1178588D900F0E551783F95FA1213E93C0567B935EA

/-- R108: the arithmetic laws, for every modulus Mod(msel) and all residues. -/
def Obligations.MontgomeryLaws : Prop :=
  ∀ (k : MSel) (x y : Nat), x < modulus k → y < modulus k →
    let m := modulus k
    let TOM := fun v => result .tomont m v 0
    let FROMM := fun v => result .frommont m v 0
    let MM := fun v w => result .montmul m v w
    (TOM x < m ∧ FROMM x < m ∧ FROMM (TOM x) = x ∧ TOM (FROMM x) = x) ∧
    MM (TOM x) (TOM y) = TOM (x * y % m) ∧
    MM x y = MM y x ∧
    MM x (2 ^ 256 % m) = x ∧
    MM x 0 = 0 ∧
    MM x (rr m) = TOM x ∧
    MM x 1 = FROMM x

/-- The corner cases of R105, R106, R107 and R130, for every odd modulus of R101. -/
def Obligations.CommandCornerCases : Prop :=
  ∀ m, m % 2 = 1 → 2 ^ 255 < m → m < 2 ^ 256 →
    (∀ v, result .montmul m 0 v = 0 ∧ result .montmul m v 0 = 0 ∧
      result .modmul m 0 v = 0 ∧ result .modmul m v 0 = 0 ∧
      result .tomont m 0 v = 0 ∧ result .frommont m 0 v = 0 ∧
      result .tomont m 1 v = 2 ^ 256 % m ∧ result .tomont m (m - 1) v = m - 2 ^ 256 % m ∧
      result .frommont m (2 ^ 256 % m) v = 1 ∧ result .frommont m 1 v = invR m) ∧
    result .montmul m (m - 1) (m - 1) = invR m ∧
    result .montmul m (2 ^ 256 % m) (2 ^ 256 % m) = 2 ^ 256 % m ∧
    (∀ v < m, result .modmul m 1 v = v) ∧
    result .modmul m (m - 1) (m - 1) = 1

/-- R131: MODMUL in terms of the Montgomery commands. -/
def Obligations.ModmulFromMontgomery : Prop :=
  ∀ (k : MSel) (a b : Nat), a < modulus k → b < modulus k →
    let m := modulus k
    result .modmul m a b = montMul m (montMul m a b) (rr m) ∧
    result .modmul m a b =
      result .frommont m (result .montmul m (result .tomont m a 0) (result .tomont m b 0)) 0

/-- The word-serial reference algorithm of R104 computes the Montgomery product of R100, for every
odd modulus of R101; and its m' for both moduli is the value R104 gives. -/
def Obligations.CiosComputesMontgomeryProduct : Prop :=
  (∀ m a b, m % 2 = 1 → 2 ^ 255 < m → m < 2 ^ 256 → a < m → b < m →
    montMulCios m a b = montMul m a b) ∧
  minusInvWord (modulus .p) = 0x00000001 ∧ minusInvWord (modulus .n) = 0x72350975

/-! ## The commands, from their acceptance to the Engine's result -/

/-- R105: an idle block with A and B below the modulus accepts MONTMUL, and the Engine then leaves the
fully reduced Z with Z · R ≡ A · B (mod m). Nothing else changes but what is named. -/
def Obligations.MontmulCompletes : Prop :=
  ∀ s : State, s.BUSY = false →
    (s.A.toNat < Config.modP → s.B.toNat < Config.modP →
      exec .montmulP s = .next (s.accepted 0b00001#5) ∧
      ∃ z : Elem, engineStep (s.accepted 0b00001#5) = .next ((s.accepted 0b00001#5).completed z) ∧
        z.toNat < Config.modP ∧
        z.toNat * 2 ^ 256 % Config.modP = s.A.toNat * s.B.toNat % Config.modP) ∧
    (s.A.toNat < Config.modN → s.B.toNat < Config.modN →
      exec .montmulN s = .next (s.accepted 0b10001#5) ∧
      ∃ z : Elem, engineStep (s.accepted 0b10001#5) = .next ((s.accepted 0b10001#5).completed z) ∧
        z.toNat < Config.modN ∧
        z.toNat * 2 ^ 256 % Config.modN = s.A.toNat * s.B.toNat % Config.modN)

/-- R106: an idle block with A below the modulus accepts TOMONT whatever B holds, and the Engine then
leaves Z = A · R mod m. -/
def Obligations.TomontCompletes : Prop :=
  ∀ s : State, s.BUSY = false →
    (s.A.toNat < Config.modP →
      exec .tomontP s = .next (s.accepted 0b00010#5) ∧
      ∃ z : Elem, engineStep (s.accepted 0b00010#5) = .next ((s.accepted 0b00010#5).completed z) ∧
        z.toNat = s.A.toNat * 2 ^ 256 % Config.modP) ∧
    (s.A.toNat < Config.modN →
      exec .tomontN s = .next (s.accepted 0b10010#5) ∧
      ∃ z : Elem, engineStep (s.accepted 0b10010#5) = .next ((s.accepted 0b10010#5).completed z) ∧
        z.toNat = s.A.toNat * 2 ^ 256 % Config.modN)

/-- R107: an idle block with A below the modulus accepts FROMMONT whatever B holds, and the Engine
then leaves the residue Z with Z · R mod m = A. -/
def Obligations.FrommontCompletes : Prop :=
  ∀ s : State, s.BUSY = false →
    (s.A.toNat < Config.modP →
      exec .frommontP s = .next (s.accepted 0b00011#5) ∧
      ∃ z : Elem, engineStep (s.accepted 0b00011#5) = .next ((s.accepted 0b00011#5).completed z) ∧
        z.toNat < Config.modP ∧ z.toNat * 2 ^ 256 % Config.modP = s.A.toNat) ∧
    (s.A.toNat < Config.modN →
      exec .frommontN s = .next (s.accepted 0b10011#5) ∧
      ∃ z : Elem, engineStep (s.accepted 0b10011#5) = .next ((s.accepted 0b10011#5).completed z) ∧
        z.toNat < Config.modN ∧ z.toNat * 2 ^ 256 % Config.modN = s.A.toNat)

/-- R130: an idle block with A and B below the modulus accepts MODMUL, and the Engine then leaves
Z = A · B mod m of the exact product. -/
def Obligations.ModmulCompletes : Prop :=
  ∀ s : State, s.BUSY = false →
    (s.A.toNat < Config.modP → s.B.toNat < Config.modP →
      exec .modmulP s = .next (s.accepted 0b00100#5) ∧
      ∃ z : Elem, engineStep (s.accepted 0b00100#5) = .next ((s.accepted 0b00100#5).completed z) ∧
        z.toNat = s.A.toNat * s.B.toNat % Config.modP) ∧
    (s.A.toNat < Config.modN → s.B.toNat < Config.modN →
      exec .modmulN s = .next (s.accepted 0b10100#5) ∧
      ∃ z : Elem, engineStep (s.accepted 0b10100#5) = .next ((s.accepted 0b10100#5).completed z) ∧
        z.toNat = s.A.toNat * s.B.toNat % Config.modN)

/-! ## 42_control.md and 60_exceptions.md -/

/-- R140, R205: the outcome of a CMD write of any word in any state, one of five in their order of
priority. -/
def Obligations.CommandWriteOutcome : Prop :=
  ∀ (s : State) (d : Word), s.Offers (Access.w 0x00C d) →
    let op := d.extractLsb' 0 4
    let m := if d.getLsbD 4 = true then Config.modN else Config.modP
    step s = .next (
      if s.BUSY = true then (s.later 1).dropped
      else if d.extractLsb' 5 27 ≠ 0#27 ∨ op ∉ [1#4, 2#4, 3#4, 4#4] then
        (s.later 1).failed (d.extractLsb' 0 5) 1#4
      else if m ≤ s.A.toNat then (s.later 1).failed (d.extractLsb' 0 5) 2#4
      else if op ∈ [1#4, 4#4] ∧ m ≤ s.B.toNat then (s.later 1).failed (d.extractLsb' 0 5) 3#4
      else (s.later 1).accepted (d.extractLsb' 0 5))

/-- R159: an idle block ends an illegal word in E_OPCODE, recording d[4:0]; the illegal words are
exactly those with OP in {0, 5..15} or a reserved bit set. -/
def Obligations.IllegalCommandEndsInError : Prop :=
  ∀ (s : State) (d : Word), s.BUSY = false →
    exec (.illegalCmd d) s = .next (s.failed (d.extractLsb' 0 5) 1#4) ∧
    (d.extractLsb' 5 27 ≠ 0#27 ∨ (d.extractLsb' 0 4).toNat = 0 ∨ 5 ≤ (d.extractLsb' 0 4).toNat ↔
      decode (Access.w 0x00C d) = .ok (.illegalCmd d)) ∧
    (s.OVR = false →
      (s.failed (d.extractLsb' 0 5) 1#4).busRead 0x008 = 0x16#32 ∧
      (s.failed (d.extractLsb' 0 5) 1#4).busRead 0x00C = (0#27 ++ d.extractLsb' 0 5 : BitVec 32))

/-- R200: each of the three errors sets DONE, ERR and ERRCODE and changes nothing else but CMDR and
the answer; irq is then IE. -/
def Obligations.FailedCommandTouchesStatusOnly : Prop :=
  ∀ s : State, s.BUSY = false →
    (∀ d : Word, exec (.illegalCmd d) s = .next (s.failed (d.extractLsb' 0 5) 1#4)) ∧
    (Config.modP ≤ s.A.toNat →
      exec .montmulP s = .next (s.failed 0b00001#5 2#4) ∧
      exec .tomontP s = .next (s.failed 0b00010#5 2#4) ∧
      exec .frommontP s = .next (s.failed 0b00011#5 2#4) ∧
      exec .modmulP s = .next (s.failed 0b00100#5 2#4)) ∧
    (Config.modN ≤ s.A.toNat →
      exec .montmulN s = .next (s.failed 0b10001#5 2#4) ∧
      exec .tomontN s = .next (s.failed 0b10010#5 2#4) ∧
      exec .frommontN s = .next (s.failed 0b10011#5 2#4) ∧
      exec .modmulN s = .next (s.failed 0b10100#5 2#4)) ∧
    (s.A.toNat < Config.modP → Config.modP ≤ s.B.toNat →
      exec .montmulP s = .next (s.failed 0b00001#5 3#4) ∧
      exec .modmulP s = .next (s.failed 0b00100#5 3#4)) ∧
    (s.A.toNat < Config.modN → Config.modN ≤ s.B.toNat →
      exec .montmulN s = .next (s.failed 0b10001#5 3#4) ∧
      exec .modmulN s = .next (s.failed 0b10100#5 3#4)) ∧
    ∀ c e, (s.failed c e).irq = s.IE

/-- R160: a write to CMD or to a word of A or B while BUSY = 1 sets OVR and nothing else, answers ok,
and leaves the command in flight to complete as it would have. -/
def Obligations.DroppedWhileBusy : Prop :=
  ∀ (s : State) (off : Nat) (d : Word), s.BUSY = true → off % 4 = 0 →
    (off = 0x00C ∨ (0x020 ≤ off ∧ off < 0x060)) → s.Offers (Access.w off d) →
    step s = .next (s.later 1).dropped ∧
    ∀ u, engineStep (s.later 1) = .next u → engineStep (s.later 1).dropped = .next u.dropped

/-- Each command's meaning, while BUSY = 1, is the dropped write. -/
def Obligations.CommandsDroppedWhileBusy : Prop :=
  ∀ s : State, s.BUSY = true →
    ∀ i ∈ [Instr.montmulP, .montmulN, .tomontP, .tomontN, .frommontP, .frommontN, .modmulP,
      .modmulN], exec i s = .next s.dropped ∧ ∀ d, exec (.illegalCmd d) s = .next s.dropped

/-- R155: a CTRL write with d[1] = 1 resets every field at once, whatever BUSY and d's other bits
hold; only what the spec does not number among the block's state is kept. -/
def Obligations.SoftReset : Prop :=
  (∀ s : State, exec .srst s = .next { State.reset with
    rstLow := s.rstLow, pending := s.pending, resp := some .ok, freeIdx := s.freeIdx }) ∧
  ∀ (s : State) (d : Word), d.getLsbD 1 = true → s.Offers (Access.w 0x004 d) →
    step s = .next { State.reset with
      rstLow := false, pending := s.pending.drop 1, resp := some .ok, freeIdx := s.freeIdx }

/-- R156: a CTRL write with d[1] = 0 sets IE to d[0] and changes nothing else, whatever BUSY holds; irq
follows at once. -/
def Obligations.InterruptEnableWrite : Prop :=
  (∀ (s : State) (v : Bool), exec (.ieWrite v) s = .next { s with IE := v, resp := some .ok }) ∧
  ∀ (s : State) (d : Word), d.getLsbD 1 = false → s.Offers (Access.w 0x004 d) →
    ∃ t, step s = .next t ∧ t = { s.later 1 with IE := d.getLsbD 0, resp := some .ok } ∧
      t.irq = (d.getLsbD 0 && s.DONE)

/-- R157, R158: what a STATUS write of any word does, the two W1C bits acting each by itself in one
step and every other bit ignored; CLRDONE and CLROVR are those meanings. -/
def Obligations.StatusWriteClears : Prop :=
  (∀ (s : State) (v : Bool), exec (.clrDone v) s = .next { s with
    DONE := false, ERR := false, ERRCODE := 0#4, OVR := !v && s.OVR, resp := some .ok }) ∧
  (∀ (s : State) (v : Bool), exec (.clrOvr v) s = .next { s with
    DONE := !v && s.DONE, ERR := !v && s.ERR, ERRCODE := if v = true then 0#4 else s.ERRCODE,
    OVR := false, resp := some .ok }) ∧
  ∀ (s : State) (d : Word), s.Offers (Access.w 0x008 d) →
    (step s = .next { s.later 1 with
      DONE := if d.getLsbD 1 = true then false else s.DONE,
      ERR := if d.getLsbD 1 = true then false else s.ERR,
      ERRCODE := if d.getLsbD 1 = true then 0#4 else s.ERRCODE,
      OVR := if d.getLsbD 3 = true then false else s.OVR,
      resp := some .ok }) ∧
    (s.Inv → s.BUSY = true → d.getLsbD 3 = false →
      step s = .next { s.later 1 with resp := some .ok })

/-- The Engine's turn is enabled exactly while BUSY = 1 (R150); with no input pending the Engine takes
it by itself, so an accepted command completes (the model's form of weak fairness, log entry 2). -/
def Obligations.EngineTurn : Prop :=
  (∀ s : State, s.rstLow = false → s.BUSY = false →
    s.pending.head? = some .engine → step s = .next (s.later 1)) ∧
  (∀ s : State, s.Inv → s.BUSY = true → s.pending.head? = some .engine →
    ∃ z : Elem, step s = .next ((s.later 1).completed z) ∧
      z.toNat < modulus (mselOfBit (s.CMDR.getLsbD 4))) ∧
  (∀ s : State, s.Inv → s.BUSY = true → s.pending = [] →
    ∃ z : Elem, step s = .next (s.completed z) ∧
      z.toNat < modulus (mselOfBit (s.CMDR.getLsbD 4))) ∧
  ∀ s : State, s.rstLow = false → s.BUSY = false → s.pending = [] → step s = .next s

/-- R152: completion writes only Z, BUSY and DONE (and the model's countdown), and irq is then IE. -/
def Obligations.CompletionFrame : Prop :=
  ∀ s : State, s.R30 → s.BUSY = true →
    ∃ t, engineStep s = .next t ∧ t.BUSY = false ∧ t.DONE = true ∧ t.A = s.A ∧ t.B = s.B ∧
      t.CMDR = s.CMDR ∧ t.IE = s.IE ∧ t.OVR = s.OVR ∧ t.ERR = s.ERR ∧ t.ERRCODE = s.ERRCODE ∧
      t.irq = s.IE

/-- R151, R102: the Engine's result for each OP, characterised modulo m, fully reduced, and a function
of CMDR, A and B alone. -/
def Obligations.EngineResult : Prop :=
  ∀ s t : State, s.R30 → s.BUSY = true → engineStep s = .next t →
    let m := if s.CMDR.getLsbD 4 = true then Config.modN else Config.modP
    let a := s.A.toNat
    let b := s.B.toNat
    t.Z.toNat < m ∧
    (s.CMDR.extractLsb' 0 4 = 1#4 → t.Z.toNat * 2 ^ 256 % m = a * b % m) ∧
    (s.CMDR.extractLsb' 0 4 = 2#4 → t.Z.toNat = a * 2 ^ 256 % m) ∧
    (s.CMDR.extractLsb' 0 4 = 3#4 → t.Z.toNat * 2 ^ 256 % m = a % m) ∧
    (s.CMDR.extractLsb' 0 4 = 4#4 → t.Z.toNat = a * b % m) ∧
    ∀ s' t' : State, s'.R30 → s'.BUSY = true → s'.CMDR = s.CMDR → s'.A = s.A → s'.B = s.B →
      engineStep s' = .next t' → t'.Z = t.Z

/-- TOMONT and FROMMONT never read B: two idle states that differ in B alone, however each is run,
give results that differ in B alone. -/
def Obligations.ConversionsIgnoreB : Prop :=
  ∀ (s : State) (b : Elem), s.BUSY = false →
    ∀ i ∈ [Instr.tomontP, .tomontN, .frommontP, .frommontN],
      ∃ t, exec i s = .next t ∧ exec i { s with B := b } = .next { t with B := b } ∧
        ∃ u, engineStep t = .next u ∧ engineStep { t with B := b } = .next { u with B := b }

/-! ## 70_reset_and_hazards.md -/

/-- R45: the reset values, after hardware reset, after a soft reset and in State.reset; ID reads its
constant and irq is 0. -/
def Obligations.ResetValues : Prop :=
  State.reset.AtReset ∧ State.reset.busRead 0x000 = 0x4D4D0100#32 ∧ State.reset.irq = false ∧
  (∀ s : State, ∃ t, exec .srst s = .next t ∧ t.AtReset ∧ t.busRead 0x000 = 0x4D4D0100#32 ∧
    t.irq = false) ∧
  ∀ s : State, s.pending.head? = some (.rst true) →
    ∃ t, step s = .next t ∧ t.AtReset ∧ t.rstLow = true ∧ t.irq = false ∧
      t.pending = s.pending.drop 1 ∧ t.busRead 0x000 = 0x4D4D0100#32

/-- While rst_n is asserted every input leaves the block at its reset values, an access has no effect,
a read of the window returns some value, and the release of rst_n ends it (R250). The free value is
any value of the model's own choice function (log entry 4). -/
def Obligations.HeldWhileResetAsserted : Prop :=
  ∀ s : State, s.rstLow = true →
    (∀ x, s.pending.head? = some x → ∃ t, step s = .next t ∧ t.AtReset ∧
      t.pending = s.pending.drop 1 ∧ (t.rstLow = true ∨ x = .rst false) ∧
      (x = .rst false → t.rstLow = false)) ∧
    (∀ off, off % 4 = 0 → off < 0x100 → s.pending.head? = some (.bus (Access.r off)) →
      ∃ t v, step s = .next t ∧ t.resp = some (.data v) ∧ t.AtReset) ∧
    (s.pending = [] → ∃ t, step s = .next t ∧ t.AtReset ∧ t.rstLow = true)

/-- R251: a command in flight that a reset meets is aborted for good: whatever follows, the release of
rst_n and any accesses but a CMD write included, Z stays 0, BUSY and DONE stay 0 and irq stays 0; with
no access following, every field stays at its reset value. -/
def Obligations.AbortedCommandNeverCompletes : Prop :=
  ∀ s : State, s.BUSY = true →
    (s.pending.head? = some (.rst true) ∨
      ∃ d : Word, d.getLsbD 1 = true ∧ s.Offers (Access.w 0x004 d)) →
    (∀ x ∈ s.pending.drop 1, ∀ d : Word, x ≠ .bus (Access.w 0x00C d)) →
    ∀ n, ∃ t, Sys2Proof.core.run (n + 1) s = .next t ∧ t.Z = 0#256 ∧ t.BUSY = false ∧
      t.DONE = false ∧ t.ERR = false ∧ t.irq = false ∧
      ((∀ x ∈ s.pending.drop 1, ∀ a : Access, x ≠ .bus a) → t.AtReset)

/-- The invariant holds at reset. -/
def Obligations.InvariantAtReset : Prop := State.reset.Inv

/-- R30 and the model's own invariants: every step keeps them, from every state that meets them. -/
def Obligations.StepKeepsInvariant : Prop :=
  ∀ s t : State, s.Inv → step s = .next t → t.Inv

/-- The block never reaches a stuck or hung state (R150): from every state that meets the invariant,
runs of every length go on, under every list of inputs, and meet it at their end. -/
def Obligations.NeverStuck : Prop :=
  ∀ (n : Nat) (s : State), s.Inv → ∃ t, Sys2Proof.core.run n s = .next t ∧ t.Inv

/-! ## Rules of the whole machine -/

/-- R23: only completion, which ends without error, and reset write Z. -/
def Obligations.ResultChangesOnlyAtCompletionOrReset : Prop :=
  ∀ s t : State, s.BusyStatusClear → step s = .next t → t.Z ≠ s.Z →
    (s.BUSY = true ∧ t.BUSY = false ∧ t.DONE = true ∧ t.ERR = false ∧ t.ERRCODE = 0#4 ∧
      t.Z.toNat < modulus (mselOfBit (s.CMDR.getLsbD 4))) ∨ (s.ResetDue ∧ t.AtReset)

/-- A and B change only by an operand word write of an idle block, or by reset: so a command always
sees the words that stood at its acceptance. -/
def Obligations.OperandsFrozenWhileBusy : Prop :=
  ∀ s t : State, step s = .next t → (t.A ≠ s.A ∨ t.B ≠ s.B) →
    (s.ResetDue ∧ t.AtReset) ∨ (s.BUSY = false ∧ ∃ (off : Nat) (d : Word), s.Offers (Access.w off d) ∧
      off % 4 = 0 ∧ (t.A ≠ s.A → 0x020 ≤ off ∧ off ≤ 0x03C) ∧
      (t.B ≠ s.B → 0x040 ≤ off ∧ off ≤ 0x05C))

/-- Whatever accesses the host makes while a command is in flight, soft resets apart, the command's
operands, CMDR and BUSY stand as at its acceptance and the Engine's result is the one it would have
had at once (R62, R160). -/
def Obligations.CommandInFlightUndisturbed : Prop :=
  ∀ (n : Nat) (s : State), s.Inv → s.BUSY = true → n ≤ s.pending.length →
    (∀ x ∈ s.pending.take n, ∃ a, x = .bus a ∧ ∀ d, a = Access.w 0x004 d → d.getLsbD 1 = false) →
    ∃ t, Sys2Proof.core.run n s = .next t ∧ t.BUSY = true ∧ t.A = s.A ∧ t.B = s.B ∧
      t.CMDR = s.CMDR ∧ t.Z = s.Z ∧ t.pending = s.pending.drop n ∧
      ∃ u v, engineStep s = .next u ∧ engineStep t = .next v ∧ v.Z = u.Z

/-- Once no command is in flight Z stands still, however long the run, until the host writes CMD or a
reset comes: reads, operand writes, STATUS and IE writes, Engine turns and clock edges leave it (R66,
R254, R258). -/
def Obligations.ResultStandsWhileIdle : Prop :=
  ∀ (n : Nat) (s : State), s.rstLow = false → s.BUSY = false →
    (∀ x ∈ s.pending, x ≠ .rst true ∧ (∀ d, x ≠ .bus (Access.w 0x00C d)) ∧
      ∀ d, x = .bus (Access.w 0x004 d) → d.getLsbD 1 = false) →
    ∃ t, Sys2Proof.core.run n s = .next t ∧ t.Z = s.Z ∧ t.BUSY = false

/-- CMDR changes only by a CMD write of an idle block, to the low five bits of its word, or by reset. -/
def Obligations.CommandRegisterChanges : Prop :=
  ∀ s t : State, step s = .next t → t.CMDR ≠ s.CMDR →
    (s.ResetDue ∧ t.AtReset) ∨ (s.BUSY = false ∧ ∃ d : Word, s.Offers (Access.w 0x00C d) ∧
      t.CMDR = d.extractLsb' 0 5)

/-- IE changes only by a CTRL write with bit 1 clear, or by reset. -/
def Obligations.InterruptEnableChanges : Prop :=
  ∀ s t : State, step s = .next t → t.IE ≠ s.IE →
    (s.ResetDue ∧ t.AtReset) ∨
      ∃ d : Word, d.getLsbD 1 = false ∧ s.Offers (Access.w 0x004 d) ∧ t.IE = d.getLsbD 0

/-- OVR is sticky: it rises only by a write to CMD, A or B while BUSY = 1, and falls only by a STATUS
write with bit 3 set, or by reset. -/
def Obligations.OverrunIsSticky : Prop :=
  ∀ s t : State, step s = .next t →
    (s.OVR = false → t.OVR = true → s.BUSY = true ∧ ∃ (off : Nat) (d : Word),
      s.Offers (Access.w off d) ∧ (off = 0x00C ∨ (0x020 ≤ off ∧ off ≤ 0x05C))) ∧
    (s.OVR = true → t.OVR = false → (s.ResetDue ∧ t.AtReset) ∨
      ∃ d : Word, d.getLsbD 3 = true ∧ s.Offers (Access.w 0x008 d))

/-- BUSY rises only when a CMD write of one of the eight legal words finds its operands in range. -/
def Obligations.BusyRisesOnlyByAcceptance : Prop :=
  ∀ s t : State, step s = .next t → s.BUSY = false → t.BUSY = true →
    ∃ d ∈ legalCommandWords, s.Offers (Access.w 0x00C d) ∧ t = (s.later 1).accepted (d.extractLsb' 0 5)
      ∧ s.A.toNat < modulus (mselOfBit (d.getLsbD 4)) ∧
      (d.extractLsb' 0 4 ∈ [1#4, 4#4] → s.B.toNat < modulus (mselOfBit (d.getLsbD 4)))

/-- The irq level rises only when a command completes, fails, or IE is written with DONE = 1, and falls
only by clearing DONE, by the acceptance of the next command, by clearing IE, or by reset (R204). -/
def Obligations.InterruptLevelChanges : Prop :=
  ∀ s t : State, step s = .next t →
    (s.irq = false → t.irq = true →
      (s.BUSY = true ∧ t.BUSY = false ∧ t.DONE = true) ∨
      (∃ d : Word, s.Offers (Access.w 0x00C d) ∧ t.ERR = true) ∨
      (∃ d : Word, s.Offers (Access.w 0x004 d) ∧ d.getLsbD 1 = false ∧ d.getLsbD 0 = true ∧
        s.DONE = true)) ∧
    (s.irq = true → t.irq = false →
      (∃ d : Word, s.Offers (Access.w 0x008 d) ∧ d.getLsbD 1 = true) ∨
      (s.BUSY = false ∧ t.BUSY = true) ∨
      (∃ d : Word, s.Offers (Access.w 0x004 d) ∧ d.getLsbD 1 = false ∧ d.getLsbD 0 = false) ∨
      (s.ResetDue ∧ t.AtReset))

/-- The output irq is IE AND DONE on the block's own line, and no other line of the platform carries
it (R28, R204; the line number is open). -/
def Obligations.InterruptOutput : Prop :=
  ∀ s : State, (s.irq = true ↔ s.IE = true ∧ s.DONE = true) ∧
    s.irqOnLine Config.irqLine = s.irq ∧
    ∀ line, line ≠ Config.irqLine → s.irqOnLine line = false

/-! ## The timed refinement (10_state.md R31, 70_reset_and_hazards.md R261) -/

/-- In the timed refinement an accepted command is still in flight, otherwise untouched, after any
number of clock edges below LAT(op), and completes at the edge number LAT(op) ≥ 1, as the Engine's
own turn would complete it; LAT(op) is the same for both moduli and all operands. -/
def Obligations.TimedCompletion : Prop :=
  ∀ (s : State) (op : Op) (k : MSel) (rest : List Input), s.Inv → s.BUSY = true →
    s.CMDR = k.bit ++ op.code → s.CNT = Config.lat op.code →
    s.pending = List.replicate (Config.lat op.code) .clock ++ rest →
    1 ≤ Config.lat op.code ∧
    (∀ j < Config.lat op.code, Sys2Proof.core.run j s = .next { s.later j with CNT := s.CNT - j }) ∧
    ∃ u, Sys2Proof.core.run (Config.lat op.code) s = .next u ∧ u.pending = rest ∧
      engineStep (s.later (Config.lat op.code)) = .next u ∧ u.BUSY = false ∧ u.DONE = true

/-- The timed refinement refines the untimed model: from every state that meets the invariant, a clock
edge either changes the hidden countdown alone or is the Engine's completion. -/
def Obligations.ClockRefinesEngine : Prop :=
  ∀ s t : State, s.Inv → s.rstLow = false → s.pending.head? = some .clock → step s = .next t →
    t = { s.later 1 with CNT := t.CNT } ∨ (s.BUSY = true ∧ engineStep (s.later 1) = .next t)

/-! ## 30_encoding.md R90: pseudo-instructions -/

/-- LDA and LDB fill A and B: an idle block that performs the eight writes holds the value, and
nothing else changes. -/
def Obligations.LoadFillsOperand : Prop :=
  ∀ (s : State) (v : Elem) (rest : List Input), s.BUSY = false → s.rstLow = false →
    (s.pending = (expandPseudo (.lda v)).straight.map .bus ++ rest →
      Sys2Proof.core.run 8 s = .next { s with A := v, pending := rest, resp := some .ok }) ∧
    (s.pending = (expandPseudo (.ldb v)).straight.map .bus ++ rest →
      Sys2Proof.core.run 8 s = .next { s with B := v, pending := rest, resp := some .ok })

/-- RDZ reads Z: the eight reads change nothing but the answer, the i-th returns word i, and the words
joined are Z. -/
def Obligations.ReadResultGivesZ : Prop :=
  ∀ (s : State) (rest : List Input), s.rstLow = false →
    s.pending = (expandPseudo .rdz).straight.map .bus ++ rest →
    (∀ i < 8, Sys2Proof.core.run (i + 1) s =
      .next { s.later (i + 1) with resp := some (.data (elemWord s.Z i)) }) ∧
    joinWords ((List.range 8).map (elemWord s.Z)) = s.Z.toNat

/-- R88 and the one-write rows of R90: CLRDONE, CLROVR, SRST, IEN and IDIS are the instructions of
those names, and each of the eight command mnemonics is its own instruction with its own word; no other
name is a command. -/
def Obligations.PseudoInstructionsDecode : Prop :=
  (expandPseudo .clrdone = .steps [Access.w 0x008 0x00000002#32] ∧
    decode (Access.w 0x008 0x00000002#32) = .ok (.clrDone false)) ∧
  (expandPseudo .clrovr = .steps [Access.w 0x008 0x00000008#32] ∧
    decode (Access.w 0x008 0x00000008#32) = .ok (.clrOvr false)) ∧
  (expandPseudo .srst = .steps [Access.w 0x004 0x00000002#32] ∧
    decode (Access.w 0x004 0x00000002#32) = .ok .srst) ∧
  (expandPseudo .ien = .steps [Access.w 0x004 0x00000001#32] ∧
    decode (Access.w 0x004 0x00000001#32) = .ok (.ieWrite true)) ∧
  (expandPseudo .idis = .steps [Access.w 0x004 0x00000000#32] ∧
    decode (Access.w 0x004 0x00000000#32) = .ok (.ieWrite false)) ∧
  (∀ row ∈ ([("MONTMUL.P", .montmulP, 0x00000001#32), ("TOMONT.P", .tomontP, 0x00000002#32),
      ("FROMMONT.P", .frommontP, 0x00000003#32), ("MODMUL.P", .modmulP, 0x00000004#32),
      ("MONTMUL.N", .montmulN, 0x00000011#32), ("TOMONT.N", .tomontN, 0x00000012#32),
      ("FROMMONT.N", .frommontN, 0x00000013#32), ("MODMUL.N", .modmulN, 0x00000014#32)] :
      List (String × Instr × Word)),
    commandOfMnemonic row.1 = some row.2.1 ∧ encode row.2.1 = Access.w 0x00C row.2.2 ∧
      decode (Access.w 0x00C row.2.2) = .ok row.2.1) ∧
  ∀ (name : String) (i : Instr), commandOfMnemonic name = some i →
    name ∈ ["MONTMUL.P", "TOMONT.P", "FROMMONT.P", "MODMUL.P", "MONTMUL.N", "TOMONT.N", "FROMMONT.N",
      "MODMUL.N"]

/-- WAIT repeats `R 0x008` until bit 0 of what it returns is 0. One poll changes the answer alone and
ends the loop exactly when BUSY = 0; however the block's transitions fall between the polls, every poll
but the last returned BUSY = 1, and a finished WAIT leaves BUSY = 0; and a poll made once the pending
inputs are used up and the Engine has had its turn ends it (the Engine's fairness, log entry 2), if
no reset comes. -/
def Obligations.WaitEndsWhenIdle : Prop :=
  expandPseudo .wait = .repeatUntilZero 0x008 0 ∧
  (∀ s : State, s.rstLow = false →
    (expandPseudo .wait).perform [0] { block := s, answers := [] } = .next
      { block := { s with resp := some (.data s.statusWord) }, answers := [.data s.statusWord] } ∧
    ((expandPseudo .wait).next [.data s.statusWord] = none ↔ s.BUSY = false)) ∧
  (∀ (s : State) (gaps : List Nat), s.Inv →
    ∃ r, (expandPseudo .wait).perform gaps { block := s, answers := [] } = .next r ∧ r.block.Inv ∧
      (∀ x ∈ r.answers.drop 1, ∃ v : Word, x = .data v ∧ v.getLsbD 0 = true) ∧
      ((expandPseudo .wait).next r.answers = none → r.block.BUSY = false ∧
        ∃ v : Word, r.answers.head? = some (.data v) ∧ v.getLsbD 0 = false)) ∧
  ∀ (s : State) (answers : List Response) (gap : Nat) (gaps : List Nat), s.Inv → s.rstLow = false →
    (∀ x ∈ s.pending, x ≠ .rst true) → s.pending.length < gap →
    (expandPseudo .wait).next answers ≠ none →
    ∃ t, (expandPseudo .wait).perform (gap :: gaps) { block := s, answers := answers } = .next
        { block := t, answers := .data t.statusWord :: answers } ∧
      t.BUSY = false ∧ (expandPseudo .wait).next (.data t.statusWord :: answers) = none
end

