-- ==== Sys2Proof/Laws/Arith.lean ====
section
/-! SUPPORT. The arithmetic of the Montgomery product: what `invR`, `montMul` and the words of a
256-bit register satisfy. -/

namespace Sys2Proof.Machine

/-- The modulus premise of spec 40_montgomery.md R101. -/
abbrev ModulusPremise (m : Nat) : Prop := m % 2 = 1 ∧ 2 ^ 255 < m ∧ m < 2 ^ 256

theorem modulus_premise (k : MSel) : ModulusPremise (modulus k) := by cases k <;> decide

theorem modulus_pos (k : MSel) : 0 < modulus k := by cases k <;> decide

theorem modulus_le_modP (k : MSel) : modulus k ≤ Config.modP := by cases k <;> decide

theorem modulus_lt_radix (k : MSel) : modulus k < 2 ^ 256 := by cases k <;> decide

theorem radix_eq : Config.radix = 2 ^ 256 := rfl

/-- Half of m + 1 is the inverse of 2 modulo an odd m. -/
theorem two_mul_half {m : Nat} (h : m % 2 = 1) : 2 * ((m + 1) / 2) ≡ 1 [MOD m] := by
  have : 2 * ((m + 1) / 2) = 1 + m := by omega
  rw [this]
  simp [Nat.ModEq]

theorem radix_mul_invR {m : Nat} (h : m % 2 = 1) : 2 ^ 256 * invR m ≡ 1 [MOD m] := by
  have hp : (2 * ((m + 1) / 2)) ^ 256 ≡ 1 ^ 256 [MOD m] := (two_mul_half h).pow 256
  rw [mul_pow, one_pow] at hp
  exact ((Nat.ModEq.refl _).mul (Nat.mod_modEq _ m)).trans hp

theorem radix_coprime {m : Nat} (h : m % 2 = 1) : Nat.Coprime (2 ^ 256) m :=
  Nat.Coprime.pow_left 256 ((Nat.coprime_two_left).2 (Nat.odd_iff.2 h))

/-- R can be cancelled modulo an odd m. -/
theorem radix_cancel {m x y : Nat} (h : m % 2 = 1) (e : x * 2 ^ 256 ≡ y * 2 ^ 256 [MOD m]) :
    x ≡ y [MOD m] :=
  Nat.ModEq.cancel_right_of_coprime ((Nat.coprime_comm.1 (radix_coprime h))) e

theorem montMul_lt {m : Nat} (h : 0 < m) (a b : Nat) : montMul m a b < m := Nat.mod_lt _ h

/-- The defining property of the Montgomery product: R times it is a · b modulo m. -/
theorem montMul_mul_radix {m : Nat} (h : m % 2 = 1) (a b : Nat) :
    montMul m a b * 2 ^ 256 ≡ a * b [MOD m] := by
  have h1 : montMul m a b * 2 ^ 256 ≡ a * b * invR m * 2 ^ 256 [MOD m] :=
    (Nat.mod_modEq _ m).mul_right _
  have h2 : a * b * (2 ^ 256 * invR m) ≡ a * b * 1 [MOD m] := (radix_mul_invR h).mul_left _
  rw [mul_one] at h2
  refine h1.trans ?_
  rw [mul_assoc, mul_comm (invR m)]
  exact h2

/-- A residue with the defining property is the Montgomery product. -/
theorem eq_montMul {m z a b : Nat} (h : m % 2 = 1) (hz : z < m)
    (e : z * 2 ^ 256 ≡ a * b [MOD m]) : z = montMul m a b := by
  have := radix_cancel h (e.trans (montMul_mul_radix h a b).symm)
  rwa [Nat.ModEq, Nat.mod_eq_of_lt hz, Nat.mod_eq_of_lt (montMul_lt (by omega) a b)] at this

theorem result_lt (op : Op) {m : Nat} (h : 0 < m) (a b : Nat) : result op m a b < m := by
  cases op <;> exact Nat.mod_lt _ h

theorem opOfCode_code (op : Op) : opOfCode op.code = some op := by cases op <;> decide

theorem mselOfBit_bit (k : MSel) : mselOfBit (k.bit.getLsbD 0) = k := by cases k <;> decide

/-- CMDR = {MSEL, OP}: its low four bits are OP. -/
theorem cmdr_op (op : Op) (k : MSel) : (k.bit ++ op.code : BitVec 5).extractLsb' 0 4 = op.code := by
  cases op <;> cases k <;> decide

/-- CMDR = {MSEL, OP}: its bit 4 is MSEL. -/
theorem cmdr_msel (op : Op) (k : MSel) :
    mselOfBit ((k.bit ++ op.code : BitVec 5).getLsbD 4) = k := by
  cases op <;> cases k <;> decide

theorem elemWord_getLsbD (x : Elem) (i j : Nat) :
    (elemWord x i).getLsbD j = (decide (j < 32) && x.getLsbD (32 * i + j)) := by
  simp [elemWord, BitVec.getLsbD_extractLsb']

theorem setElemWord_getLsbD (x : Elem) (i : Nat) (d : Word) {k : Nat} (hk : k < 256) :
    (setElemWord x i d).getLsbD k =
      if 32 * i ≤ k ∧ k < 32 * i + 32 then d.getLsbD (k - 32 * i) else x.getLsbD k := by
  by_cases h1 : k < 32 * i
  · have h2 : ¬ 32 * i ≤ k := by omega
    simp only [setElemWord, BitVec.getLsbD_or, BitVec.getLsbD_and, BitVec.getLsbD_not,
      BitVec.getLsbD_shiftLeft, BitVec.getLsbD_setWidth, BitVec.getLsbD_allOnes]
    simp [h1, h2, hk]
  · by_cases h3 : k < 32 * i + 32
    · have h2 : 32 * i ≤ k := by omega
      have h4 : k - 32 * i < 32 := by omega
      have h5 : k - 32 * i < 256 := by omega
      simp only [setElemWord, BitVec.getLsbD_or, BitVec.getLsbD_and, BitVec.getLsbD_not,
        BitVec.getLsbD_shiftLeft, BitVec.getLsbD_setWidth, BitVec.getLsbD_allOnes]
      simp [h1, h2, h3, h4, h5, hk]
    · have h4 : ¬ k - 32 * i < 32 := by omega
      have h5 : d.getLsbD (k - 32 * i) = false := BitVec.getLsbD_of_ge _ _ (by omega)
      simp only [setElemWord, BitVec.getLsbD_or, BitVec.getLsbD_and, BitVec.getLsbD_not,
        BitVec.getLsbD_shiftLeft, BitVec.getLsbD_setWidth, BitVec.getLsbD_allOnes]
      simp [h1, h3, h4, h5, hk]

/-- The word just written reads back. -/
theorem elemWord_setElemWord_same (x : Elem) {i : Nat} (hi : i < 8) (d : Word) :
    elemWord (setElemWord x i d) i = d := by
  apply BitVec.eq_of_getLsbD_eq
  intro j hj
  rw [elemWord_getLsbD, setElemWord_getLsbD _ _ _ (by omega), if_pos (by omega),
    Nat.add_sub_cancel_left, decide_eq_true hj, Bool.true_and]

/-- Every other word stays. -/
theorem elemWord_setElemWord_ne (x : Elem) {i k : Nat} (hk : k < 8) (h : k ≠ i) (d : Word) :
    elemWord (setElemWord x i d) k = elemWord x k := by
  apply BitVec.eq_of_getLsbD_eq
  intro j hj
  rw [elemWord_getLsbD, elemWord_getLsbD, setElemWord_getLsbD _ _ _ (by omega), if_neg (by omega)]

/-- A 256-bit value is its eight words. -/
theorem elem_ext {x y : Elem} (h : ∀ i < 8, elemWord x i = elemWord y i) : x = y := by
  apply BitVec.eq_of_getLsbD_eq
  intro j hj
  have hw := congrArg (fun w => BitVec.getLsbD w (j % 32)) (h (j / 32) (by omega))
  have e : 32 * (j / 32) + j % 32 = j := Nat.div_add_mod j 32
  have l : j % 32 < 32 := Nat.mod_lt _ (by decide)
  simpa only [elemWord_getLsbD, e, decide_eq_true l, Bool.true_and] using hw

end Sys2Proof.Machine
end

