-- ==== Sys2Proof/Laws/Cios.lean ====
section
/-! SUPPORT. What the parts of the reference algorithm (spec 40_montgomery.md R104) compute: a row of
word products, one round, the word inverse and the words of a value. -/

namespace Sys2Proof.Machine

theorem wordBase_pos : 0 < wordBase := by decide

/-- A row of length n adds x · y + c to t exactly, in n words and a carry. -/
theorem mulAddRow_spec (x : Nat) : ∀ (ts ys : List Nat) (c : Nat), ts.length = ys.length →
    (mulAddRow x ts ys c).1.length = ts.length ∧
    valueOf (mulAddRow x ts ys c).1 + wordBase ^ ts.length * (mulAddRow x ts ys c).2 =
      valueOf ts + x * valueOf ys + c
  | [], [], c, _ => by simp [mulAddRow, valueOf]
  | t :: ts, y :: ys, c, h => by
    have ih := mulAddRow_spec x ts ys ((t + x * y + c) / wordBase) (by simpa using h)
    simp only [mulAddRow, valueOf, List.length_cons]
    refine ⟨by rw [ih.1], ?_⟩
    have hv := Nat.mod_add_div (t + x * y + c) wordBase
    calc (t + x * y + c) % wordBase
          + wordBase * valueOf (mulAddRow x ts ys ((t + x * y + c) / wordBase)).1
          + wordBase ^ (ts.length + 1) * (mulAddRow x ts ys ((t + x * y + c) / wordBase)).2
        = (t + x * y + c) % wordBase + wordBase
            * (valueOf (mulAddRow x ts ys ((t + x * y + c) / wordBase)).1
              + wordBase ^ ts.length
                * (mulAddRow x ts ys ((t + x * y + c) / wordBase)).2) := by ring
      _ = (t + x * y + c) % wordBase + wordBase * ((t + x * y + c) / wordBase)
            + wordBase * (valueOf ts + x * valueOf ys) := by rw [ih.2]; ring
      _ = t + wordBase * valueOf ts + x * (y + wordBase * valueOf ys) + c := by rw [hv]; ring

/-- The first word of a row is the low word of its first sum. -/
theorem mulAddRow_head (x t y c : Nat) (ts ys : List Nat) :
    (mulAddRow x (t :: ts) (y :: ys) c).1.headD 0 = (t + x * y + c) % wordBase := rfl

theorem valueOf_append (u v : List Nat) :
    valueOf (u ++ v) = valueOf u + wordBase ^ u.length * valueOf v := by
  induction u with
  | nil => simp [valueOf]
  | cons w ws ih => simp only [List.cons_append, valueOf, ih, List.length_cons]; ring

theorem valueOf_head_tail (u : List Nat) : valueOf u = u.headD 0 + wordBase * valueOf u.tail := by
  cases u <;> rfl

theorem headD_mod (u : List Nat) : valueOf u % wordBase = u.headD 0 % wordBase := by
  rw [valueOf_head_tail u, Nat.add_mul_mod_self_left]

/-- The value an accumulator holds. -/
def CiosAcc.value (t : CiosAcc) : Nat := valueOf t.low + wordBase ^ 8 * t.top

/-- One improvement of the word inverse doubles its precision. -/
theorem improve_spec {m x p : Nat} (hp : p * p ∣ wordBase) (h : m * x ≡ 1 [MOD p]) :
    m * (x * (2 + (wordBase - m * x % wordBase)) % wordBase) ≡ 1 [MOD p * p] := by
  have hw : m * x % wordBase ≡ m * x [MOD p * p] := (Nat.mod_modEq _ wordBase).of_dvd hp
  rw [← Int.natCast_modEq_iff] at h hw ⊢
  have lt : m * x % wordBase ≤ wordBase := (Nat.mod_lt _ wordBase_pos).le
  have h1 : ((x * (2 + (wordBase - m * x % wordBase)) % wordBase : Nat) : Int) ≡
      (x : Int) * (2 + ((wordBase : Int) - (m * x % wordBase : Nat))) [ZMOD ((p * p : Nat) : Int)] := by
    have : (x * (2 + (wordBase - m * x % wordBase)) % wordBase : Nat) ≡
        x * (2 + (wordBase - m * x % wordBase)) [MOD p * p] := (Nat.mod_modEq _ wordBase).of_dvd hp
    rw [← Int.natCast_modEq_iff] at this
    push_cast [Nat.cast_sub lt] at this ⊢
    exact this
  have h2 : (wordBase : Int) ≡ 0 [ZMOD ((p * p : Nat) : Int)] := by
    rw [Int.modEq_zero_iff_dvd]
    exact_mod_cast hp
  have h3 : ((m * x : Nat) : Int) ≡ 1 [ZMOD (p : Int)] := by exact_mod_cast h
  obtain ⟨k, hk⟩ := h3.symm.dvd
  calc ((m * (x * (2 + (wordBase - m * x % wordBase)) % wordBase) : Nat) : Int)
      = (m : Int) * ((x * (2 + (wordBase - m * x % wordBase)) % wordBase : Nat) : Int) := by
        push_cast; ring
    _ ≡ (m : Int) * ((x : Int) * (2 + ((wordBase : Int) - (m * x % wordBase : Nat))))
        [ZMOD ((p * p : Nat) : Int)] := h1.mul_left _
    _ ≡ (m : Int) * ((x : Int) * (2 + (0 - (m * x : Nat)))) [ZMOD ((p * p : Nat) : Int)] :=
        (((h2.sub hw).add_left _).mul_left _).mul_left _
    _ ≡ 1 [ZMOD ((p * p : Nat) : Int)] := by
        rw [Int.modEq_iff_dvd]
        refine ⟨k * k, ?_⟩
        have hk' : (m : Int) * x = 1 + p * k := by push_cast at hk; linarith
        push_cast
        calc (1 : Int) - m * (x * (2 + (0 - m * x)))
            = (1 - m * x) * (1 - m * x) := by ring
          _ = p * p * (k * k) := by rw [hk']; ring

/-- m' is minus the inverse of m modulo 2^32, for every odd m. -/
theorem minusInvWord_spec {m : Nat} (h : m % 2 = 1) : minusInvWord m * m + 1 ≡ 0 [MOD wordBase] := by
  have h0 : m * 1 ≡ 1 [MOD 2] := by rw [Nat.ModEq, mul_one, h]
  have h1 := improve_spec (p := 2) (by decide) h0
  have h2 := improve_spec (p := 2 * 2) (by decide) h1
  have h3 := improve_spec (p := 2 * 2 * (2 * 2)) (by decide) h2
  have h4 := improve_spec (p := 2 * 2 * (2 * 2) * (2 * 2 * (2 * 2))) (by decide) h3
  have h5 := improve_spec
    (p := 2 * 2 * (2 * 2) * (2 * 2 * (2 * 2)) * (2 * 2 * (2 * 2) * (2 * 2 * (2 * 2)))) (by decide) h4
  set inv := _ % wordBase with hi
  have hlt : inv ≤ wordBase := (Nat.mod_lt _ wordBase_pos).le
  have hm : minusInvWord m = wordBase - inv := rfl
  rw [hm]
  have hs : (wordBase - inv) * m + 1 + m * inv = wordBase * m + 1 := by
    have : (wordBase - inv) * m + inv * m = wordBase * m := by
      rw [← Nat.add_mul, Nat.sub_add_cancel hlt]
    linarith
  have : (wordBase - inv) * m + 1 + m * inv ≡ 0 + m * inv [MOD wordBase] := by
    rw [hs, zero_add]
    refine Nat.ModEq.trans ?_ (h5.symm : _ ≡ _ [MOD wordBase])
    simp [Nat.ModEq]
  exact Nat.ModEq.add_right_cancel' _ this

/-- A 256-bit value is the value of its eight words. -/
theorem valueOf_wordsOf {v : Nat} (h : v < 2 ^ 256) : valueOf (wordsOf v) = v := by
  have e : wordsOf v = [v % wordBase, v / wordBase % wordBase, v / wordBase ^ 2 % wordBase,
      v / wordBase ^ 3 % wordBase, v / wordBase ^ 4 % wordBase, v / wordBase ^ 5 % wordBase,
      v / wordBase ^ 6 % wordBase, v / wordBase ^ 7 % wordBase] := by
    simp [wordsOf, List.range, List.range.loop]
  rw [e]
  simp only [valueOf, wordBase]
  omega

theorem wordsOf_length (v : Nat) : (wordsOf v).length = 8 := by simp [wordsOf]

/-- Putting the last word and the top of a round together, in any base. -/
theorem round_arith (W tail T X Q r2 d2 row red S L : Nat) (hS : S = T + r2)
    (hL : L = S % W + d2) (hred : red = W * tail) (hr : row + W ^ 8 * r2 = X)
    (hd : red + W ^ 8 * d2 = row + Q) :
    W * (tail + W ^ 7 * (L % W) + W ^ 8 * (S / W + L / W)) = X + W ^ 8 * T + Q := by
  have s1 := Nat.mod_add_div S W
  have s2 := Nat.mod_add_div L W
  calc W * (tail + W ^ 7 * (L % W) + W ^ 8 * (S / W + L / W))
      = W * tail + W ^ 8 * (L % W + W * (L / W) + W * (S / W)) := by ring
    _ = red + W ^ 8 * (S % W + W * (S / W) + d2) := by rw [s2, hred, hL]; ring
    _ = (red + W ^ 8 * d2) + W ^ 8 * S := by rw [s1]; ring
    _ = (row + W ^ 8 * r2) + W ^ 8 * T + Q := by rw [hd, hS]; ring
    _ = X + W ^ 8 * T + Q := by rw [hr]

/-- The lowest word after adding q · m is 0, q being chosen for that. -/
theorem round_low_zero {W low k row q m r m' red : Nat} (hlow : low < W)
    (hred : red = low + W * k) {d : Nat} (hd : red + W ^ 8 * d = row + q * m)
    (hrow : row % W = r % W) (hq : q ≡ r * m' [MOD W]) (hm : m' * m + 1 ≡ 0 [MOD W]) : low = 0 := by
  have e0 : low ≡ row + q * m [MOD W] := by
    rw [← hd, hred]
    have h8 : W * k + W ^ 8 * d ≡ 0 [MOD W] :=
      (Nat.modEq_zero_iff_dvd).2 ⟨k + W ^ 7 * d, by ring⟩
    have := (h8.symm.add_left low)
    rwa [Nat.add_zero, ← Nat.add_assoc] at this
  have e1 : row + q * m ≡ r * (m' * m + 1) [MOD W] := by
    have h' : row + q * m ≡ r + r * m' * m [MOD W] := Nat.ModEq.add hrow (hq.mul_right m)
    have e : r + r * m' * m = r * (m' * m + 1) := by ring
    rwa [e] at h'
  have e2 := (e0.trans e1).trans (hm.mul_left r)
  rwa [mul_zero, Nat.ModEq, Nat.mod_eq_of_lt hlow, Nat.zero_mod] at e2

/-- One round: W times the new value is the old value plus x · b plus some q · m with q < W. -/
theorem ciosRound_spec {m b x : Nat} {t : CiosAcc} (hodd : m % 2 = 1) (hm : m < 2 ^ 256)
    (hb : b < 2 ^ 256) (ht : t.low.length = 8) :
    (ciosRound (wordsOf m) (wordsOf b) (minusInvWord m) t x).low.length = 8 ∧
    ∃ q < wordBase,
      wordBase * (ciosRound (wordsOf m) (wordsOf b) (minusInvWord m) t x).value =
        t.value + x * b + q * m := by
  obtain ⟨rl, rv⟩ := mulAddRow_spec x t.low (wordsOf b) 0 (by rw [ht, wordsOf_length])
  have hmi := minusInvWord_spec hodd
  have vm := valueOf_wordsOf hm
  have lm := wordsOf_length m
  rw [valueOf_wordsOf hb, ht, Nat.add_zero] at rv
  unfold ciosRound CiosAcc.value
  generalize wordsOf b = bs at rl rv ⊢
  generalize wordsOf m = ms at vm lm ⊢
  generalize minusInvWord m = m' at hmi ⊢
  generalize mulAddRow x t.low bs 0 = row at rl rv ⊢
  rw [ht] at rl
  dsimp only
  have hq : row.1.headD 0 * m' % wordBase ≡ row.1.headD 0 * m' [MOD wordBase] := Nat.mod_modEq _ _
  have hql : row.1.headD 0 * m' % wordBase < wordBase := Nat.mod_lt _ wordBase_pos
  generalize row.1.headD 0 * m' % wordBase = q at hq hql ⊢
  obtain ⟨dl, dv⟩ := mulAddRow_spec q row.1 ms 0 (by rw [rl, lm])
  rw [vm, rl, Nat.add_zero] at dv
  rw [rl] at dl
  have head_lt : (mulAddRow q row.1 ms 0).1.headD 0 < wordBase := by
    rcases h1 : row.1 with _ | ⟨r, rs⟩
    · rw [h1] at rl; cases rl
    · rcases h2 : ms with _ | ⟨w, ws⟩
      · rw [h2] at lm; cases lm
      · rw [mulAddRow_head]
        exact Nat.mod_lt _ wordBase_pos
  generalize mulAddRow q row.1 ms 0 = red at dl dv head_lt ⊢
  have hz := round_low_zero head_lt (valueOf_head_tail red.1) dv (headD_mod row.1) hq hmi
  have hval := valueOf_head_tail red.1
  rw [hz, Nat.zero_add] at hval
  have tl : red.1.tail.length = 7 := by rw [List.length_tail, dl]
  refine ⟨by rw [List.length_append, tl]; rfl, q, hql, ?_⟩
  rw [valueOf_append, tl]
  simp only [valueOf, mul_zero, add_zero]
  rw [round_arith wordBase (valueOf red.1.tail) t.top (valueOf t.low + x * b) (q * m) row.2 red.2
    (valueOf row.1) (valueOf red.1) _ _ rfl rfl hval rv dv]
  ring

end Sys2Proof.Machine
end

