-- ==== Sys2Proof/Laws/Decode.lean ====
section
/-! SUPPORT. What the port's check, the address map and the decoder say of the host steps `R off` and
`W off, d`. -/

namespace Sys2Proof

theorem w_refused (off : Nat) (d : Word) :
    (Access.w off d).refused = (off % 4 != 0 || decide (0x100 ≤ off)) := by
  change (off % 4 != 0 || false || false || decide (0x100 ≤ off)) = _
  simp only [Bool.or_false]

theorem r_refused (off : Nat) :
    (Access.r off).refused = (off % 4 != 0 || decide (0x100 ≤ off)) := by
  change (off % 4 != 0 || false || decide (0x100 ≤ off)) = _
  simp only [Bool.or_false]

theorem w_performed {off : Nat} (d : Word) (h4 : off % 4 = 0) (h : off < 0x100) :
    (Access.w off d).refused = false := by
  simp [w_refused, h4, h]

/-- A write that is performed goes to the place the map gives. -/
theorem decode_w {off : Nat} (d : Word) (h4 : off % 4 = 0) (h : off < 0x100) :
    decode (Access.w off d) =
      match placeOf off with
      | .cmd => .ok (decodeCmd d)
      | .ctrl => .ok (decodeCtrl d)
      | .status => decodeStatus d
      | .opA _ | .opB _ => .error .operandWord
      | .id | .resZ _ | .reserved => .error .ignoredOffset := by
  unfold decode
  rw [w_performed d h4 h]
  rfl

theorem decode_w_cmd (d : Word) : decode (Access.w 0x00C d) = .ok (decodeCmd d) :=
  decode_w d (by decide) (by decide)

theorem decode_w_ctrl (d : Word) : decode (Access.w 0x004 d) = .ok (decodeCtrl d) :=
  decode_w d (by decide) (by decide)

theorem decode_w_status (d : Word) : decode (Access.w 0x008 d) = decodeStatus d :=
  decode_w d (by decide) (by decide)

theorem decode_r {off : Nat} (h4 : off % 4 = 0) (h : off < 0x100) :
    decode (Access.r off) = .error .isRead := by
  have : (Access.r off).refused = false := by simp [r_refused, h4, h]
  unfold decode
  rw [this]
  rfl

theorem decode_refused {x : Access} (h : x.refused = true) : decode x = .error .busError := by
  unfold decode
  rw [h]
  rfl

/-- An access that is performed is one of the two host steps. -/
theorem performed_form {x : Access} (h : x.refused = false) :
    (∃ off, x = Access.r off ∧ off % 4 = 0 ∧ off < 0x100) ∨
    (∃ off d, x = Access.w off d ∧ off % 4 = 0 ∧ off < 0x100) := by
  cases x with
  | read off width =>
    change (off % 4 != 0 || width != 32 || decide (0x100 ≤ off)) = false at h
    simp only [Bool.or_eq_false_iff, bne_eq_false_iff_eq, decide_eq_false_iff_not] at h
    exact .inl ⟨off, by rw [h.1.2]; rfl, h.1.1, by omega⟩
  | write off width lanes d =>
    change (off % 4 != 0 || width != 32 || lanes != 0xF#4 || decide (0x100 ≤ off)) = false at h
    simp only [Bool.or_eq_false_iff, bne_eq_false_iff_eq, decide_eq_false_iff_not] at h
    exact .inr ⟨off, d, by rw [h.1.1.2, h.1.2]; rfl, h.1.1.1, by omega⟩

theorem placeOf_opA {i : Nat} (h : i < 8) : placeOf (0x020 + 4 * i) = .opA i := by
  have : (32 + 4 * i - 32) / 4 = i := by omega
  unfold placeOf
  rw [if_neg (by omega), if_neg (by omega), if_neg (by omega), if_neg (by omega), if_neg (by omega),
    if_pos (by omega), this]

theorem placeOf_opB {i : Nat} (h : i < 8) : placeOf (0x040 + 4 * i) = .opB i := by
  have : (64 + 4 * i - 64) / 4 = i := by omega
  unfold placeOf
  rw [if_neg (by omega), if_neg (by omega), if_neg (by omega), if_neg (by omega), if_neg (by omega),
    if_neg (by omega), if_pos (by omega), this]

/-- What a place of the map says of the offset. -/
def PlaceFits (off : Nat) : Place → Prop
  | .id => off = 0x000
  | .ctrl => off = 0x004
  | .status => off = 0x008
  | .cmd => off = 0x00C
  | .opA i => i < 8 ∧ off = 0x020 + 4 * i
  | .opB i => i < 8 ∧ off = 0x040 + 4 * i
  | .resZ i => i < 8 ∧ off = 0x060 + 4 * i
  | .reserved => (0x010 ≤ off ∧ off ≤ 0x01C) ∨ (0x080 ≤ off ∧ off ≤ 0x0FC)

theorem placeOf_fits {off : Nat} (h4 : off % 4 = 0) (h : off < 0x100) :
    PlaceFits off (placeOf off) := by
  unfold placeOf
  split; · assumption
  split; · assumption
  split; · assumption
  split; · assumption
  split; · exact .inl ⟨by omega, by omega⟩
  split; · exact ⟨by omega, by omega⟩
  split; · exact ⟨by omega, by omega⟩
  split; · exact ⟨by omega, by omega⟩
  exact .inr ⟨by omega, by omega⟩

/-- The fields of a word by arithmetic: the decoder's tests, for `omega`. -/
theorem word_fields (d : Word) :
    (d.extractLsb' 5 27).toNat = d.toNat / 32 ∧ (d.extractLsb' 0 4).toNat = d.toNat % 16 ∧
      (d.getLsbD 4 = true ↔ d.toNat / 16 % 2 = 1) := by
  have h := d.isLt
  refine ⟨?_, ?_, ?_⟩
  · rw [BitVec.extractLsb'_toNat, Nat.shiftRight_eq_div_pow]
    omega
  · rw [BitVec.extractLsb'_toNat, Nat.shiftRight_zero]
  · rw [BitVec.getLsbD, Nat.testBit_eq_decide_div_mod_eq]
    simp

/-- A word whose value is one of the eight decodes as R88 says; all others are illegal. -/
theorem decodeCmd_eq (d : Word) :
    decodeCmd d =
      if d = 0x01#32 then .montmulP else if d = 0x02#32 then .tomontP
      else if d = 0x03#32 then .frommontP else if d = 0x04#32 then .modmulP
      else if d = 0x11#32 then .montmulN else if d = 0x12#32 then .tomontN
      else if d = 0x13#32 then .frommontN else if d = 0x14#32 then .modmulN
      else .illegalCmd d := by
  by_cases hl : d ∈ legalCommandWords
  · simp only [legalCommandWords, List.mem_cons, List.not_mem_nil, or_false] at hl
    rcases hl with rfl | rfl | rfl | rfl | rfl | rfl | rfl | rfl <;> decide
  · have hn : ∀ w : Word, w ∈ legalCommandWords → d ≠ w := fun w hw e => hl (e ▸ hw)
    rw [if_neg (hn _ (by decide)), if_neg (hn _ (by decide)), if_neg (hn _ (by decide)),
      if_neg (hn _ (by decide)), if_neg (hn _ (by decide)), if_neg (hn _ (by decide)),
      if_neg (hn _ (by decide)), if_neg (hn _ (by decide))]
    have ne : ∀ n : Nat, n < 2 ^ 32 → BitVec.ofNat 32 n ∈ legalCommandWords → d.toNat ≠ n := by
      intro n hb hw e
      refine hn _ hw (BitVec.eq_of_toNat_eq ?_)
      rw [e, BitVec.toNat_ofNat, Nat.mod_eq_of_lt hb]
    have n1 := ne 1 (by decide) (by decide)
    have n2 := ne 2 (by decide) (by decide)
    have n3 := ne 3 (by decide) (by decide)
    have n4 := ne 4 (by decide) (by decide)
    have n5 := ne 17 (by decide) (by decide)
    have n6 := ne 18 (by decide) (by decide)
    have n7 := ne 19 (by decide) (by decide)
    have n8 := ne 20 (by decide) (by decide)
    obtain ⟨h1, h2, h3⟩ := word_fields d
    unfold decodeCmd
    by_cases hr : d.extractLsb' 5 27 = 0#27
    · have hr' : d.toNat / 32 = 0 := by rw [← h1, hr]; rfl
      rw [if_neg (not_not_intro hr), h2]
      generalize d.getLsbD 4 = b at h3 ⊢
      split
      case h_9 => rfl
      all_goals
        exfalso
        simp only [Bool.false_eq_true, false_iff, true_iff] at h3
        omega
    · rw [if_pos hr]

/-- A word that is none of the eight is illegal. -/
theorem decodeCmd_illegal {d : Word} (h : d ∉ legalCommandWords) : decodeCmd d = .illegalCmd d := by
  have hn : ∀ w : Word, w ∈ legalCommandWords → d ≠ w := fun w hw e => h (e ▸ hw)
  rw [decodeCmd_eq, if_neg (hn _ (by decide)), if_neg (hn _ (by decide)), if_neg (hn _ (by decide)),
    if_neg (hn _ (by decide)), if_neg (hn _ (by decide)), if_neg (hn _ (by decide)),
    if_neg (hn _ (by decide)), if_neg (hn _ (by decide))]

theorem mem_legalCommandWords {d : Word} :
    d ∈ legalCommandWords ↔
      d.extractLsb' 5 27 = 0#27 ∧ d.extractLsb' 0 4 ∈ [1#4, 2#4, 3#4, 4#4] := by
  obtain ⟨h1, h2, -⟩ := word_fields d
  constructor
  · intro h
    simp only [legalCommandWords, List.mem_cons, List.not_mem_nil, or_false] at h
    rcases h with rfl | rfl | rfl | rfl | rfl | rfl | rfl | rfl <;> decide
  · rintro ⟨hr, ho⟩
    have hr' : d.toNat / 32 = 0 := by rw [← h1, hr]; rfl
    have hv : d.toNat % 16 ∈ [1, 2, 3, 4] := by
      rw [← h2]
      simp only [List.mem_cons, List.not_mem_nil, or_false] at ho ⊢
      rcases ho with h | h | h | h <;> simp [h]
    have : d.toNat ∈ [1, 2, 3, 4, 17, 18, 19, 20] := by
      simp only [List.mem_cons, List.not_mem_nil, or_false] at hv ⊢
      omega
    simp only [List.mem_cons, List.not_mem_nil, or_false] at this
    have key : ∀ n : Nat, d.toNat = n → BitVec.ofNat 32 n ∈ legalCommandWords →
        d ∈ legalCommandWords := by
      intro n e hm
      have : d = BitVec.ofNat 32 n := BitVec.eq_of_toNat_eq (by
        have := d.isLt
        simp [e]
        omega)
      exact this ▸ hm
    rcases this with h | h | h | h | h | h | h | h <;> exact key _ h (by decide)

/-- A legal word is a command's word; the decoded instruction writes it back. -/
theorem legal_is_command {d : Word} (h : d ∈ legalCommandWords) :
    ∃ (op : Op) (k : MSel), d = commandWord op k := by
  simp only [legalCommandWords, List.mem_cons, List.not_mem_nil, or_false] at h
  rcases h with h | h | h | h | h | h | h | h
  · exact ⟨.montmul, .p, h⟩
  · exact ⟨.tomont, .p, h⟩
  · exact ⟨.frommont, .p, h⟩
  · exact ⟨.modmul, .p, h⟩
  · exact ⟨.montmul, .n, h⟩
  · exact ⟨.tomont, .n, h⟩
  · exact ⟨.frommont, .n, h⟩
  · exact ⟨.modmul, .n, h⟩

theorem commandWord_low (op : Op) (k : MSel) :
    (commandWord op k).extractLsb' 0 5 = k.bit ++ op.code := by
  cases op <;> cases k <;> decide

theorem commandWord_op (op : Op) (k : MSel) : (commandWord op k).extractLsb' 0 4 = op.code := by
  cases op <;> cases k <;> decide

end Sys2Proof
end

