-- ==== Sys2Proof/Laws/State.lean ====
section
/-! SUPPORT. One lemma per field per named update of the state, so that no proof unfolds an update. -/

namespace Sys2Proof.Machine

variable (s : State)

/-! ## respond -/

@[simp] theorem respond_A (r : Response) : (s.respond r).A = s.A := rfl
@[simp] theorem respond_B (r : Response) : (s.respond r).B = s.B := rfl
@[simp] theorem respond_Z (r : Response) : (s.respond r).Z = s.Z := rfl
@[simp] theorem respond_IE (r : Response) : (s.respond r).IE = s.IE := rfl
@[simp] theorem respond_BUSY (r : Response) : (s.respond r).BUSY = s.BUSY := rfl
@[simp] theorem respond_DONE (r : Response) : (s.respond r).DONE = s.DONE := rfl
@[simp] theorem respond_ERR (r : Response) : (s.respond r).ERR = s.ERR := rfl
@[simp] theorem respond_OVR (r : Response) : (s.respond r).OVR = s.OVR := rfl
@[simp] theorem respond_ERRCODE (r : Response) : (s.respond r).ERRCODE = s.ERRCODE := rfl
@[simp] theorem respond_CMDR (r : Response) : (s.respond r).CMDR = s.CMDR := rfl
@[simp] theorem respond_CNT (r : Response) : (s.respond r).CNT = s.CNT := rfl
@[simp] theorem respond_rstLow (r : Response) : (s.respond r).rstLow = s.rstLow := rfl
@[simp] theorem respond_pending (r : Response) : (s.respond r).pending = s.pending := rfl
@[simp] theorem respond_resp (r : Response) : (s.respond r).resp = some r := rfl
@[simp] theorem respond_freeIdx (r : Response) : (s.respond r).freeIdx = s.freeIdx := rfl

/-! ## dropWrite -/

@[simp] theorem dropWrite_A : (s.dropWrite).A = s.A := rfl
@[simp] theorem dropWrite_B : (s.dropWrite).B = s.B := rfl
@[simp] theorem dropWrite_Z : (s.dropWrite).Z = s.Z := rfl
@[simp] theorem dropWrite_IE : (s.dropWrite).IE = s.IE := rfl
@[simp] theorem dropWrite_BUSY : (s.dropWrite).BUSY = s.BUSY := rfl
@[simp] theorem dropWrite_DONE : (s.dropWrite).DONE = s.DONE := rfl
@[simp] theorem dropWrite_ERR : (s.dropWrite).ERR = s.ERR := rfl
@[simp] theorem dropWrite_OVR : (s.dropWrite).OVR = true := rfl
@[simp] theorem dropWrite_ERRCODE : (s.dropWrite).ERRCODE = s.ERRCODE := rfl
@[simp] theorem dropWrite_CMDR : (s.dropWrite).CMDR = s.CMDR := rfl
@[simp] theorem dropWrite_CNT : (s.dropWrite).CNT = s.CNT := rfl
@[simp] theorem dropWrite_rstLow : (s.dropWrite).rstLow = s.rstLow := rfl
@[simp] theorem dropWrite_pending : (s.dropWrite).pending = s.pending := rfl
@[simp] theorem dropWrite_resp : (s.dropWrite).resp = s.resp := rfl
@[simp] theorem dropWrite_freeIdx : (s.dropWrite).freeIdx = s.freeIdx := rfl

/-! ## recordCmd -/

@[simp] theorem recordCmd_A (c : BitVec 5) : (s.recordCmd c).A = s.A := rfl
@[simp] theorem recordCmd_B (c : BitVec 5) : (s.recordCmd c).B = s.B := rfl
@[simp] theorem recordCmd_Z (c : BitVec 5) : (s.recordCmd c).Z = s.Z := rfl
@[simp] theorem recordCmd_IE (c : BitVec 5) : (s.recordCmd c).IE = s.IE := rfl
@[simp] theorem recordCmd_BUSY (c : BitVec 5) : (s.recordCmd c).BUSY = s.BUSY := rfl
@[simp] theorem recordCmd_DONE (c : BitVec 5) : (s.recordCmd c).DONE = s.DONE := rfl
@[simp] theorem recordCmd_ERR (c : BitVec 5) : (s.recordCmd c).ERR = s.ERR := rfl
@[simp] theorem recordCmd_OVR (c : BitVec 5) : (s.recordCmd c).OVR = s.OVR := rfl
@[simp] theorem recordCmd_ERRCODE (c : BitVec 5) : (s.recordCmd c).ERRCODE = s.ERRCODE := rfl
@[simp] theorem recordCmd_CMDR (c : BitVec 5) : (s.recordCmd c).CMDR = c := rfl
@[simp] theorem recordCmd_CNT (c : BitVec 5) : (s.recordCmd c).CNT = s.CNT := rfl
@[simp] theorem recordCmd_rstLow (c : BitVec 5) : (s.recordCmd c).rstLow = s.rstLow := rfl
@[simp] theorem recordCmd_pending (c : BitVec 5) : (s.recordCmd c).pending = s.pending := rfl
@[simp] theorem recordCmd_resp (c : BitVec 5) : (s.recordCmd c).resp = s.resp := rfl
@[simp] theorem recordCmd_freeIdx (c : BitVec 5) : (s.recordCmd c).freeIdx = s.freeIdx := rfl

/-! ## clearStatus -/

@[simp] theorem clearStatus_A : (s.clearStatus).A = s.A := rfl
@[simp] theorem clearStatus_B : (s.clearStatus).B = s.B := rfl
@[simp] theorem clearStatus_Z : (s.clearStatus).Z = s.Z := rfl
@[simp] theorem clearStatus_IE : (s.clearStatus).IE = s.IE := rfl
@[simp] theorem clearStatus_BUSY : (s.clearStatus).BUSY = s.BUSY := rfl
@[simp] theorem clearStatus_DONE : (s.clearStatus).DONE = false := rfl
@[simp] theorem clearStatus_ERR : (s.clearStatus).ERR = false := rfl
@[simp] theorem clearStatus_OVR : (s.clearStatus).OVR = s.OVR := rfl
@[simp] theorem clearStatus_ERRCODE : (s.clearStatus).ERRCODE = 0#4 := rfl
@[simp] theorem clearStatus_CMDR : (s.clearStatus).CMDR = s.CMDR := rfl
@[simp] theorem clearStatus_CNT : (s.clearStatus).CNT = s.CNT := rfl
@[simp] theorem clearStatus_rstLow : (s.clearStatus).rstLow = s.rstLow := rfl
@[simp] theorem clearStatus_pending : (s.clearStatus).pending = s.pending := rfl
@[simp] theorem clearStatus_resp : (s.clearStatus).resp = s.resp := rfl
@[simp] theorem clearStatus_freeIdx : (s.clearStatus).freeIdx = s.freeIdx := rfl

/-! ## clearOvr -/

@[simp] theorem clearOvr_A : (s.clearOvr).A = s.A := rfl
@[simp] theorem clearOvr_B : (s.clearOvr).B = s.B := rfl
@[simp] theorem clearOvr_Z : (s.clearOvr).Z = s.Z := rfl
@[simp] theorem clearOvr_IE : (s.clearOvr).IE = s.IE := rfl
@[simp] theorem clearOvr_BUSY : (s.clearOvr).BUSY = s.BUSY := rfl
@[simp] theorem clearOvr_DONE : (s.clearOvr).DONE = s.DONE := rfl
@[simp] theorem clearOvr_ERR : (s.clearOvr).ERR = s.ERR := rfl
@[simp] theorem clearOvr_OVR : (s.clearOvr).OVR = false := rfl
@[simp] theorem clearOvr_ERRCODE : (s.clearOvr).ERRCODE = s.ERRCODE := rfl
@[simp] theorem clearOvr_CMDR : (s.clearOvr).CMDR = s.CMDR := rfl
@[simp] theorem clearOvr_CNT : (s.clearOvr).CNT = s.CNT := rfl
@[simp] theorem clearOvr_rstLow : (s.clearOvr).rstLow = s.rstLow := rfl
@[simp] theorem clearOvr_pending : (s.clearOvr).pending = s.pending := rfl
@[simp] theorem clearOvr_resp : (s.clearOvr).resp = s.resp := rfl
@[simp] theorem clearOvr_freeIdx : (s.clearOvr).freeIdx = s.freeIdx := rfl

/-! ## setIE -/

@[simp] theorem setIE_A (v : Bool) : (s.setIE v).A = s.A := rfl
@[simp] theorem setIE_B (v : Bool) : (s.setIE v).B = s.B := rfl
@[simp] theorem setIE_Z (v : Bool) : (s.setIE v).Z = s.Z := rfl
@[simp] theorem setIE_IE (v : Bool) : (s.setIE v).IE = v := rfl
@[simp] theorem setIE_BUSY (v : Bool) : (s.setIE v).BUSY = s.BUSY := rfl
@[simp] theorem setIE_DONE (v : Bool) : (s.setIE v).DONE = s.DONE := rfl
@[simp] theorem setIE_ERR (v : Bool) : (s.setIE v).ERR = s.ERR := rfl
@[simp] theorem setIE_OVR (v : Bool) : (s.setIE v).OVR = s.OVR := rfl
@[simp] theorem setIE_ERRCODE (v : Bool) : (s.setIE v).ERRCODE = s.ERRCODE := rfl
@[simp] theorem setIE_CMDR (v : Bool) : (s.setIE v).CMDR = s.CMDR := rfl
@[simp] theorem setIE_CNT (v : Bool) : (s.setIE v).CNT = s.CNT := rfl
@[simp] theorem setIE_rstLow (v : Bool) : (s.setIE v).rstLow = s.rstLow := rfl
@[simp] theorem setIE_pending (v : Bool) : (s.setIE v).pending = s.pending := rfl
@[simp] theorem setIE_resp (v : Bool) : (s.setIE v).resp = s.resp := rfl
@[simp] theorem setIE_freeIdx (v : Bool) : (s.setIE v).freeIdx = s.freeIdx := rfl

/-! ## fail -/

@[simp] theorem fail_A (c : BitVec 4) : (s.fail c).A = s.A := rfl
@[simp] theorem fail_B (c : BitVec 4) : (s.fail c).B = s.B := rfl
@[simp] theorem fail_Z (c : BitVec 4) : (s.fail c).Z = s.Z := rfl
@[simp] theorem fail_IE (c : BitVec 4) : (s.fail c).IE = s.IE := rfl
@[simp] theorem fail_BUSY (c : BitVec 4) : (s.fail c).BUSY = s.BUSY := rfl
@[simp] theorem fail_DONE (c : BitVec 4) : (s.fail c).DONE = true := rfl
@[simp] theorem fail_ERR (c : BitVec 4) : (s.fail c).ERR = true := rfl
@[simp] theorem fail_OVR (c : BitVec 4) : (s.fail c).OVR = s.OVR := rfl
@[simp] theorem fail_ERRCODE (c : BitVec 4) : (s.fail c).ERRCODE = c := rfl
@[simp] theorem fail_CMDR (c : BitVec 4) : (s.fail c).CMDR = s.CMDR := rfl
@[simp] theorem fail_CNT (c : BitVec 4) : (s.fail c).CNT = s.CNT := rfl
@[simp] theorem fail_rstLow (c : BitVec 4) : (s.fail c).rstLow = s.rstLow := rfl
@[simp] theorem fail_pending (c : BitVec 4) : (s.fail c).pending = s.pending := rfl
@[simp] theorem fail_resp (c : BitVec 4) : (s.fail c).resp = s.resp := rfl
@[simp] theorem fail_freeIdx (c : BitVec 4) : (s.fail c).freeIdx = s.freeIdx := rfl

/-! ## accept -/

@[simp] theorem accept_A (op : Op) : (s.accept op).A = s.A := rfl
@[simp] theorem accept_B (op : Op) : (s.accept op).B = s.B := rfl
@[simp] theorem accept_Z (op : Op) : (s.accept op).Z = s.Z := rfl
@[simp] theorem accept_IE (op : Op) : (s.accept op).IE = s.IE := rfl
@[simp] theorem accept_BUSY (op : Op) : (s.accept op).BUSY = true := rfl
@[simp] theorem accept_DONE (op : Op) : (s.accept op).DONE = s.DONE := rfl
@[simp] theorem accept_ERR (op : Op) : (s.accept op).ERR = s.ERR := rfl
@[simp] theorem accept_OVR (op : Op) : (s.accept op).OVR = s.OVR := rfl
@[simp] theorem accept_ERRCODE (op : Op) : (s.accept op).ERRCODE = s.ERRCODE := rfl
@[simp] theorem accept_CMDR (op : Op) : (s.accept op).CMDR = s.CMDR := rfl
@[simp] theorem accept_CNT (op : Op) : (s.accept op).CNT = Config.lat op.code := rfl
@[simp] theorem accept_rstLow (op : Op) : (s.accept op).rstLow = s.rstLow := rfl
@[simp] theorem accept_pending (op : Op) : (s.accept op).pending = s.pending := rfl
@[simp] theorem accept_resp (op : Op) : (s.accept op).resp = s.resp := rfl
@[simp] theorem accept_freeIdx (op : Op) : (s.accept op).freeIdx = s.freeIdx := rfl

/-! ## resetBlock -/

@[simp] theorem resetBlock_A : (s.resetBlock).A = 0#256 := rfl
@[simp] theorem resetBlock_B : (s.resetBlock).B = 0#256 := rfl
@[simp] theorem resetBlock_Z : (s.resetBlock).Z = 0#256 := rfl
@[simp] theorem resetBlock_IE : (s.resetBlock).IE = false := rfl
@[simp] theorem resetBlock_BUSY : (s.resetBlock).BUSY = false := rfl
@[simp] theorem resetBlock_DONE : (s.resetBlock).DONE = false := rfl
@[simp] theorem resetBlock_ERR : (s.resetBlock).ERR = false := rfl
@[simp] theorem resetBlock_OVR : (s.resetBlock).OVR = false := rfl
@[simp] theorem resetBlock_ERRCODE : (s.resetBlock).ERRCODE = 0#4 := rfl
@[simp] theorem resetBlock_CMDR : (s.resetBlock).CMDR = 0#5 := rfl
@[simp] theorem resetBlock_CNT : (s.resetBlock).CNT = 0 := rfl
@[simp] theorem resetBlock_rstLow : (s.resetBlock).rstLow = s.rstLow := rfl
@[simp] theorem resetBlock_pending : (s.resetBlock).pending = s.pending := rfl
@[simp] theorem resetBlock_resp : (s.resetBlock).resp = s.resp := rfl
@[simp] theorem resetBlock_freeIdx : (s.resetBlock).freeIdx = s.freeIdx := rfl

/-! ## finish -/

@[simp] theorem finish_A (z : Nat) : (s.finish z).A = s.A := rfl
@[simp] theorem finish_B (z : Nat) : (s.finish z).B = s.B := rfl
@[simp] theorem finish_Z (z : Nat) : (s.finish z).Z = BitVec.ofNat 256 z := rfl
@[simp] theorem finish_IE (z : Nat) : (s.finish z).IE = s.IE := rfl
@[simp] theorem finish_BUSY (z : Nat) : (s.finish z).BUSY = false := rfl
@[simp] theorem finish_DONE (z : Nat) : (s.finish z).DONE = true := rfl
@[simp] theorem finish_ERR (z : Nat) : (s.finish z).ERR = s.ERR := rfl
@[simp] theorem finish_OVR (z : Nat) : (s.finish z).OVR = s.OVR := rfl
@[simp] theorem finish_ERRCODE (z : Nat) : (s.finish z).ERRCODE = s.ERRCODE := rfl
@[simp] theorem finish_CMDR (z : Nat) : (s.finish z).CMDR = s.CMDR := rfl
@[simp] theorem finish_CNT (z : Nat) : (s.finish z).CNT = 0 := rfl
@[simp] theorem finish_rstLow (z : Nat) : (s.finish z).rstLow = s.rstLow := rfl
@[simp] theorem finish_pending (z : Nat) : (s.finish z).pending = s.pending := rfl
@[simp] theorem finish_resp (z : Nat) : (s.finish z).resp = s.resp := rfl
@[simp] theorem finish_freeIdx (z : Nat) : (s.finish z).freeIdx = s.freeIdx := rfl

/-! ## statusWrite -/

@[simp] theorem statusWrite_DONE (d o : Bool) : (s.statusWrite d o).DONE = (!d && s.DONE) := by
  cases d <;> cases o <;> rfl
@[simp] theorem statusWrite_ERR (d o : Bool) : (s.statusWrite d o).ERR = (!d && s.ERR) := by
  cases d <;> cases o <;> rfl
@[simp] theorem statusWrite_ERRCODE (d o : Bool) :
    (s.statusWrite d o).ERRCODE = if d then 0#4 else s.ERRCODE := by cases d <;> cases o <;> rfl
@[simp] theorem statusWrite_OVR (d o : Bool) : (s.statusWrite d o).OVR = (!o && s.OVR) := by
  cases d <;> cases o <;> rfl
@[simp] theorem statusWrite_A (d o : Bool) : (s.statusWrite d o).A = s.A := by
  cases d <;> cases o <;> rfl
@[simp] theorem statusWrite_B (d o : Bool) : (s.statusWrite d o).B = s.B := by
  cases d <;> cases o <;> rfl
@[simp] theorem statusWrite_Z (d o : Bool) : (s.statusWrite d o).Z = s.Z := by
  cases d <;> cases o <;> rfl
@[simp] theorem statusWrite_IE (d o : Bool) : (s.statusWrite d o).IE = s.IE := by
  cases d <;> cases o <;> rfl
@[simp] theorem statusWrite_BUSY (d o : Bool) : (s.statusWrite d o).BUSY = s.BUSY := by
  cases d <;> cases o <;> rfl
@[simp] theorem statusWrite_CMDR (d o : Bool) : (s.statusWrite d o).CMDR = s.CMDR := by
  cases d <;> cases o <;> rfl
@[simp] theorem statusWrite_CNT (d o : Bool) : (s.statusWrite d o).CNT = s.CNT := by
  cases d <;> cases o <;> rfl
@[simp] theorem statusWrite_rstLow (d o : Bool) : (s.statusWrite d o).rstLow = s.rstLow := by
  cases d <;> cases o <;> rfl
@[simp] theorem statusWrite_pending (d o : Bool) : (s.statusWrite d o).pending = s.pending := by
  cases d <;> cases o <;> rfl
@[simp] theorem statusWrite_resp (d o : Bool) : (s.statusWrite d o).resp = s.resp := by
  cases d <;> cases o <;> rfl
@[simp] theorem statusWrite_freeIdx (d o : Bool) : (s.statusWrite d o).freeIdx = s.freeIdx := by
  cases d <;> cases o <;> rfl

end Sys2Proof.Machine
end

