-- ==== Sys2Proof/Laws/Ops.lean ====
section
/-! SUPPORT. One lemma per shared operation: everything it can do. -/

namespace Sys2Proof.Machine

/-- What the CMD write of a legal word does (R140): dropped, one of two range errors, or accepted. -/
theorem issue_cases (s : State) (op : Op) (k : MSel) :
    (s.BUSY = true ∧ (s.issue op k).respond .ok = s.dropped) ∨
    (s.BUSY = false ∧ modulus k ≤ s.A.toNat ∧
      (s.issue op k).respond .ok = s.failed (k.bit ++ op.code) 2#4) ∨
    (s.BUSY = false ∧ s.A.toNat < modulus k ∧ readsB op = true ∧ modulus k ≤ s.B.toNat ∧
      (s.issue op k).respond .ok = s.failed (k.bit ++ op.code) 3#4) ∨
    (s.BUSY = false ∧ s.A.toNat < modulus k ∧ (readsB op = true → s.B.toNat < modulus k) ∧
      (s.issue op k).respond .ok = s.accepted (k.bit ++ op.code)) := by
  unfold State.issue
  cases hb : s.BUSY
  · right
    simp only [Bool.false_eq_true, if_false]
    by_cases ha : modulus k ≤ s.A.toNat
    · left
      rw [if_pos ha]
      exact ⟨trivial, ha, rfl⟩
    · right
      rw [if_neg ha]
      by_cases hB : readsB op = true ∧ modulus k ≤ s.B.toNat
      · left
        rw [if_pos (by simpa using hB)]
        exact ⟨trivial, Nat.not_le.1 ha, hB.1, hB.2, rfl⟩
      · right
        rw [if_neg (by simpa using hB)]
        refine ⟨trivial, Nat.not_le.1 ha, fun h => Nat.not_le.1 fun hm => hB ⟨h, hm⟩, ?_⟩
        simp only [State.accepted, State.accept, State.respond, State.recordCmd, State.clearStatus,
          cmdr_op]
  · exact .inl ⟨rfl, rfl⟩

theorem issue_accepts {s : State} {op : Op} {k : MSel} (hb : s.BUSY = false)
    (ha : s.A.toNat < modulus k) (hB : readsB op = true → s.B.toNat < modulus k) :
    (s.issue op k).respond .ok = s.accepted (k.bit ++ op.code) := by
  rcases issue_cases s op k with h | h | h | h
  · simp [hb] at h
  · omega
  · have := hB h.2.2.1; omega
  · exact h.2.2.2

theorem issue_rangeA {s : State} {op : Op} {k : MSel} (hb : s.BUSY = false)
    (ha : modulus k ≤ s.A.toNat) :
    (s.issue op k).respond .ok = s.failed (k.bit ++ op.code) 2#4 := by
  rcases issue_cases s op k with h | h | h | h
  · simp [hb] at h
  · exact h.2.2
  · omega
  · omega

theorem issue_rangeB {s : State} {op : Op} {k : MSel} (hb : s.BUSY = false)
    (ha : s.A.toNat < modulus k) (hr : readsB op = true) (hB : modulus k ≤ s.B.toNat) :
    (s.issue op k).respond .ok = s.failed (k.bit ++ op.code) 3#4 := by
  rcases issue_cases s op k with h | h | h | h
  · simp [hb] at h
  · omega
  · exact h.2.2.2.2
  · have := h.2.2.1 hr; omega

theorem issue_busy {s : State} (op : Op) (k : MSel) (hb : s.BUSY = true) :
    (s.issue op k).respond .ok = s.dropped := by
  simp [State.issue, hb, State.dropWrite, State.respond, State.dropped]

theorem issueIllegal_idle {s : State} (d : Word) (hb : s.BUSY = false) :
    (s.issueIllegal d).respond .ok = s.failed (d.extractLsb' 0 5) 1#4 := by
  simp [State.issueIllegal, hb, State.respond, State.failed, State.fail, State.recordCmd,
    State.clearStatus, eOpcode]

theorem issueIllegal_busy {s : State} (d : Word) (hb : s.BUSY = true) :
    (s.issueIllegal d).respond .ok = s.dropped := by
  simp [State.issueIllegal, hb, State.dropWrite, State.respond, State.dropped]

/-- The meaning of a legal command is the CMD write of its operation and modulus. -/
theorem exec_command (op : Op) (k : MSel) (s : State) :
    exec (decodeCmd (commandWord op k)) s = .next ((s.issue op k).respond .ok) := by
  cases op <;> cases k <;> rfl

/-- Completion of the command that CMDR = {MSEL, OP} names. -/
theorem complete_eq {s : State} {op : Op} (h : opOfCode (s.CMDR.extractLsb' 0 4) = some op) :
    complete s = .next (s.completed (BitVec.ofNat 256
      (result op (modulus (mselOfBit (s.CMDR.getLsbD 4))) s.A.toNat s.B.toNat))) := by
  unfold complete
  rw [h]
  rfl

theorem complete_cases {s t : State} (h : complete s = .next t) :
    ∃ op, opOfCode (s.CMDR.extractLsb' 0 4) = some op ∧ t = s.completed (BitVec.ofNat 256
      (result op (modulus (mselOfBit (s.CMDR.getLsbD 4))) s.A.toNat s.B.toNat)) := by
  cases ho : opOfCode (s.CMDR.extractLsb' 0 4) with
  | none => simp [complete, ho] at h
  | some op => exact ⟨op, rfl, by rw [complete_eq ho] at h; exact (Host.Outcome.next.inj h).symm⟩

/-- The result fits the register: Z holds it exactly. -/
theorem ofNat_result (op : Op) (k : MSel) (a b : Nat) :
    (BitVec.ofNat 256 (result op (modulus k) a b)).toNat = result op (modulus k) a b := by
  rw [BitVec.toNat_ofNat]
  exact Nat.mod_eq_of_lt ((result_lt op (modulus_pos k) a b).trans (modulus_lt_radix k))

theorem opOfCode_of_mem {c : BitVec 4} (h : c ∈ [1#4, 2#4, 3#4, 4#4]) : ∃ op, opOfCode c = some op := by
  simp only [List.mem_cons, List.not_mem_nil, or_false] at h
  rcases h with rfl | rfl | rfl | rfl
  exacts [⟨.montmul, by decide⟩, ⟨.tomont, by decide⟩, ⟨.frommont, by decide⟩, ⟨.modmul, by decide⟩]

theorem engineStep_idle {s : State} (h : s.BUSY = false) : engineStep s = .next s := by
  simp [engineStep, h]

theorem engineStep_busy {s : State} (h : s.BUSY = true) : engineStep s = complete s := by
  simp [engineStep, h]

/-- The Engine after an acceptance: the result of the accepted operation. -/
theorem engineStep_accepted (s : State) (op : Op) (k : MSel) :
    engineStep (s.accepted (k.bit ++ op.code)) =
      .next ((s.accepted (k.bit ++ op.code)).completed (BitVec.ofNat 256
        (result op (modulus k) s.A.toNat s.B.toNat))) := by
  rw [engineStep_busy rfl, complete_eq (op := op) (by
    change opOfCode ((k.bit ++ op.code : BitVec 5).extractLsb' 0 4) = _
    rw [cmdr_op, opOfCode_code])]
  change Host.Outcome.next (State.completed _ (BitVec.ofNat 256 (result op
    (modulus (mselOfBit ((k.bit ++ op.code : BitVec 5).getLsbD 4))) s.A.toNat s.B.toNat))) = _
  rw [cmdr_msel]

end Sys2Proof.Machine
end

