-- ==== Sys2Proof/Laws/Step.lean ====
section
/-! SUPPORT. What a step can do, said once: every next state is one of the changes below. -/

namespace Sys2Proof.Machine

/-! The fields of the state with its first inputs taken away. -/

@[simp] theorem later_A (s : State) (n : Nat) : (s.later n).A = s.A := rfl
@[simp] theorem later_B (s : State) (n : Nat) : (s.later n).B = s.B := rfl
@[simp] theorem later_Z (s : State) (n : Nat) : (s.later n).Z = s.Z := rfl
@[simp] theorem later_IE (s : State) (n : Nat) : (s.later n).IE = s.IE := rfl
@[simp] theorem later_BUSY (s : State) (n : Nat) : (s.later n).BUSY = s.BUSY := rfl
@[simp] theorem later_DONE (s : State) (n : Nat) : (s.later n).DONE = s.DONE := rfl
@[simp] theorem later_ERR (s : State) (n : Nat) : (s.later n).ERR = s.ERR := rfl
@[simp] theorem later_OVR (s : State) (n : Nat) : (s.later n).OVR = s.OVR := rfl
@[simp] theorem later_ERRCODE (s : State) (n : Nat) : (s.later n).ERRCODE = s.ERRCODE := rfl
@[simp] theorem later_CMDR (s : State) (n : Nat) : (s.later n).CMDR = s.CMDR := rfl
@[simp] theorem later_CNT (s : State) (n : Nat) : (s.later n).CNT = s.CNT := rfl
@[simp] theorem later_rstLow (s : State) (n : Nat) : (s.later n).rstLow = s.rstLow := rfl
@[simp] theorem later_pending (s : State) (n : Nat) : (s.later n).pending = s.pending.drop n := rfl
@[simp] theorem later_resp (s : State) (n : Nat) : (s.later n).resp = s.resp := rfl
@[simp] theorem later_freeIdx (s : State) (n : Nat) : (s.later n).freeIdx = s.freeIdx := rfl

/-- The changes one step can make, on the state with its next input taken away. -/
inductive Change (s : State) : State → Prop where
  /-- Reset, hard or soft, or a step while rst_n is asserted. -/
  | reset {t : State} (h : t.AtReset) (hd : s.ResetDue) (hp : t.pending = s.pending.drop 1) : Change s t
  /-- At most the answer changes: a read, a refused or ignored access, an Engine turn or a clock edge
  of an idle block, the release of a released rst_n, nothing pending. -/
  | answer (r : Option Response) (hr : s.rstLow = false) : Change s { s.later 1 with resp := r }
  /-- A word of A is written. -/
  | writeA (i : Nat) (d : Word) (hi : i < 8) (hb : s.BUSY = false)
      (ho : s.Offers (Access.w (0x020 + 4 * i) d)) :
      Change s { s.later 1 with A := setElemWord s.A i d, resp := some .ok }
  /-- A word of B is written. -/
  | writeB (i : Nat) (d : Word) (hi : i < 8) (hb : s.BUSY = false)
      (ho : s.Offers (Access.w (0x040 + 4 * i) d)) :
      Change s { s.later 1 with B := setElemWord s.B i d, resp := some .ok }
  /-- A write is dropped. -/
  | drop (off : Nat) (d : Word) (hb : s.BUSY = true)
      (hp : off = 0x00C ∨ (0x020 ≤ off ∧ off ≤ 0x05C)) (ho : s.Offers (Access.w off d)) :
      Change s (s.later 1).dropped
  /-- A command fails. -/
  | fail (d : Word) (e : BitVec 4) (hb : s.BUSY = false) (he : e ∈ [1#4, 2#4, 3#4])
      (ho : s.Offers (Access.w 0x00C d)) : Change s ((s.later 1).failed (d.extractLsb' 0 5) e)
  /-- A command is accepted. -/
  | accept (op : Op) (k : MSel) (hb : s.BUSY = false) (ha : s.A.toNat < modulus k)
      (hB : readsB op = true → s.B.toNat < modulus k)
      (ho : s.Offers (Access.w 0x00C (commandWord op k))) :
      Change s ((s.later 1).accepted (k.bit ++ op.code))
  /-- IE is written. -/
  | ie (d : Word) (h1 : d.getLsbD 1 = false) (ho : s.Offers (Access.w 0x004 d)) :
      Change s { s.later 1 with IE := d.getLsbD 0, resp := some .ok }
  /-- STATUS bits are cleared. -/
  | status (d : Word) (ho : s.Offers (Access.w 0x008 d)) :
      Change s (((s.later 1).statusWrite (d.getLsbD 1) (d.getLsbD 3)).respond .ok)
  /-- The countdown goes on. -/
  | count (hr : s.rstLow = false) (hb : s.BUSY = true) (hc : 1 < s.CNT)
      (hp : s.pending.head? = some .clock) : Change s { s.later 1 with CNT := s.CNT - 1 }
  /-- A command completes. -/
  | complete (op : Op) (hr : s.rstLow = false) (hb : s.BUSY = true)
      (hn : ∀ x, s.pending.head? ≠ some (.bus x)) (ho : opOfCode (s.CMDR.extractLsb' 0 4) = some op) :
      Change s ((s.later 1).completed (BitVec.ofNat 256
        (result op (modulus (mselOfBit (s.CMDR.getLsbD 4))) s.A.toNat s.B.toNat)))

theorem later_one {s : State} {x : Input} {rest : List Input} (h : s.pending = x :: rest) :
    s.later 1 = { s with pending := rest } := by
  simp [State.later, h]

theorem later_one_nil {s : State} (h : s.pending = []) : s.later 1 = s := by
  cases s
  simp_all [State.later]

theorem step_cons {s : State} {x : Input} (h : s.pending.head? = some x) :
    step s = input x (s.later 1) := by
  cases hp : s.pending with
  | nil => simp [hp] at h
  | cons y rest =>
    obtain rfl : y = x := by simpa [hp] using h
    rw [later_one hp]
    simp [step, hp]

theorem step_nil {s : State} (h : s.pending = []) : step s = quietStep s := by
  simp [step, h]

/-- The next input is an access, with rst_n released: the step is the access. -/
theorem step_offers {s : State} {x : Access} (h : s.Offers x) : step s = access x (s.later 1) := by
  rw [step_cons h.2]
  simp [input, State.later, h.1]

theorem access_ok {x : Access} {i : Instr} (h : decode x = .ok i) (s : State) :
    access x s = exec i s := by
  simp [access, h]

theorem access_refused {x : Access} (h : x.refused = true) (s : State) :
    access x s = .next (s.respond .busError) := by
  simp [access, decode_refused h]

theorem access_r {off : Nat} (h4 : off % 4 = 0) (h : off < 0x100) (s : State) :
    access (Access.r off) s = .next (s.respond (.data (s.busRead off))) := by
  unfold access
  rw [decode_r h4 h]
  rfl

theorem access_cmd (d : Word) (s : State) : access (Access.w 0x00C d) s = exec (decodeCmd d) s :=
  access_ok (decode_w_cmd d) s

theorem access_ctrl (d : Word) (s : State) : access (Access.w 0x004 d) s = exec (decodeCtrl d) s :=
  access_ok (decode_w_ctrl d) s

/-- A STATUS write of any word is StatusWrite of its two W1C bits (R158). -/
theorem access_status (d : Word) (s : State) :
    access (Access.w 0x008 d) s =
      .next ((s.statusWrite (d.getLsbD 1) (d.getLsbD 3)).respond .ok) := by
  have hd := decode_w_status d
  unfold decodeStatus at hd
  cases h1 : d.getLsbD 1 <;> cases h3 : d.getLsbD 3 <;>
    simp only [h1, h3, Bool.false_eq_true, if_true, if_false] at hd
  · unfold access; rw [hd]; rfl
  · rw [access_ok hd]; rfl
  · rw [access_ok hd]; rfl
  · rw [access_ok hd]; rfl

theorem access_opA {i : Nat} (hi : i < 8) (d : Word) (s : State) :
    access (Access.w (0x020 + 4 * i) d) s = .next ((s.writeA i d).respond .ok) := by
  unfold access
  rw [decode_w d (by omega) (by omega), placeOf_opA hi]
  change Host.Outcome.next ((s.plainWrite (0x020 + 4 * i) d).respond .ok) = _
  rw [State.plainWrite, placeOf_opA hi]

theorem access_opB {i : Nat} (hi : i < 8) (d : Word) (s : State) :
    access (Access.w (0x040 + 4 * i) d) s = .next ((s.writeB i d).respond .ok) := by
  unfold access
  rw [decode_w d (by omega) (by omega), placeOf_opB hi]
  change Host.Outcome.next ((s.plainWrite (0x040 + 4 * i) d).respond .ok) = _
  rw [State.plainWrite, placeOf_opB hi]

/-- A write to ID, a Z word or a reserved offset is ignored (R61). -/
theorem access_ignored {off : Nat} (h4 : off % 4 = 0) (h : off < 0x100)
    (hp : off = 0x000 ∨ (0x010 ≤ off ∧ off ≤ 0x01C) ∨ 0x060 ≤ off) (d : Word) (s : State) :
    access (Access.w off d) s = .next (s.respond .ok) := by
  have hf := placeOf_fits h4 h
  unfold access
  rw [decode_w d h4 h]
  cases hq : placeOf off with
  | id | resZ _ | reserved =>
    change Host.Outcome.next ((s.plainWrite off d).respond .ok) = _
    rw [State.plainWrite, hq]
  | ctrl | status | cmd => rw [hq] at hf; simp only [PlaceFits] at hf; omega
  | opA _ | opB _ => rw [hq] at hf; simp only [PlaceFits] at hf; omega

/-- A CMD write of any word (R140, R205). -/
theorem access_cmd_cases (d : Word) (s : State) :
    (s.BUSY = true ∧ access (Access.w 0x00C d) s = .next s.dropped) ∨
    (s.BUSY = false ∧ d ∉ legalCommandWords ∧
      access (Access.w 0x00C d) s = .next (s.failed (d.extractLsb' 0 5) 1#4)) ∨
    (s.BUSY = false ∧ ∃ op k, d = commandWord op k ∧
      access (Access.w 0x00C d) s = .next ((s.issue op k).respond .ok)) := by
  rw [access_cmd]
  by_cases hl : d ∈ legalCommandWords
  · obtain ⟨op, k, rfl⟩ := legal_is_command hl
    rw [exec_command]
    cases hb : s.BUSY
    · exact .inr (.inr ⟨rfl, op, k, rfl, rfl⟩)
    · exact .inl ⟨rfl, by rw [issue_busy op k hb]⟩
  · rw [decodeCmd_illegal hl]
    change (_ ∧ Host.Outcome.next ((s.issueIllegal d).respond .ok) = _) ∨ _ ∨ _
    cases hb : s.BUSY
    · exact .inr (.inl ⟨rfl, hl, by
        change Host.Outcome.next ((s.issueIllegal d).respond .ok) = _
        rw [issueIllegal_idle d hb]⟩)
    · exact .inl ⟨rfl, by rw [issueIllegal_busy d hb]⟩

/-- A performed write, by its place. -/
theorem write_change {s t : State} {off : Nat} {d : Word} (ho : s.Offers (Access.w off d))
    (h4 : off % 4 = 0) (h : off < 0x100) (ht : access (Access.w off d) (s.later 1) = .next t) :
    Change s t := by
  have hf := placeOf_fits h4 h
  cases hq : placeOf off <;> rw [hq] at hf <;> simp only [PlaceFits] at hf
  case id =>
    rw [access_ignored h4 h (.inl hf)] at ht
    obtain rfl := Host.Outcome.next.inj ht
    exact .answer _ ho.1
  case ctrl =>
    subst hf
    rw [access_ctrl, decodeCtrl] at ht
    cases h1 : d.getLsbD 1 <;> simp only [h1, if_true, if_false, Bool.false_eq_true] at ht
    · obtain rfl := Host.Outcome.next.inj ht
      exact .ie d h1 ho
    · obtain rfl := Host.Outcome.next.inj ht
      exact .reset ⟨rfl, rfl, rfl, rfl, rfl, rfl, rfl, rfl, rfl, rfl, rfl⟩ (.inr (.inr ⟨d, ho, h1⟩)) rfl
  case status =>
    subst hf
    rw [access_status] at ht
    obtain rfl := Host.Outcome.next.inj ht
    exact .status d ho
  case cmd =>
    subst hf
    rcases access_cmd_cases d (s.later 1) with ⟨hb, e⟩ | ⟨hb, -, e⟩ | ⟨hb, op, k, rfl, e⟩
    · rw [e] at ht
      obtain rfl := Host.Outcome.next.inj ht
      exact .drop 0x00C d hb (.inl rfl) ho
    · rw [e] at ht
      obtain rfl := Host.Outcome.next.inj ht
      exact .fail d 1#4 hb (by decide) ho
    · rw [e] at ht
      obtain rfl := Host.Outcome.next.inj ht
      rcases issue_cases (s.later 1) op k with c | c | c | c
      · rw [hb] at c; exact absurd c.1 (by decide)
      · rw [c.2.2, ← commandWord_low]; exact .fail _ 2#4 hb (by decide) ho
      · rw [c.2.2.2.2, ← commandWord_low]; exact .fail _ 3#4 hb (by decide) ho
      · rw [c.2.2.2]; exact .accept op k hb c.2.1 c.2.2.1 ho
  case opA i =>
    obtain ⟨hi, rfl⟩ := hf
    rw [access_opA hi] at ht
    obtain rfl := Host.Outcome.next.inj ht
    unfold State.writeA
    cases hb : s.BUSY
    · rw [if_neg (by simp [State.later, hb])]; exact .writeA i d hi hb ho
    · rw [if_pos (by simp [State.later, hb])]; exact .drop _ d hb (.inr (by omega)) ho
  case opB i =>
    obtain ⟨hi, rfl⟩ := hf
    rw [access_opB hi] at ht
    obtain rfl := Host.Outcome.next.inj ht
    unfold State.writeB
    cases hb : s.BUSY
    · rw [if_neg (by simp [State.later, hb])]; exact .writeB i d hi hb ho
    · rw [if_pos (by simp [State.later, hb])]; exact .drop _ d hb (.inr (by omega)) ho
  case resZ i =>
    rw [access_ignored h4 h (.inr (.inr (by omega)))] at ht
    obtain rfl := Host.Outcome.next.inj ht
    exact .answer _ ho.1
  case reserved =>
    rw [access_ignored h4 h (by omega)] at ht
    obtain rfl := Host.Outcome.next.inj ht
    exact .answer _ ho.1

theorem engine_change {s t : State} (hr : s.rstLow = false)
    (hn : ∀ x, s.pending.head? ≠ some (.bus x))
    (ht : engineStep (s.later 1) = .next t) : Change s t := by
  cases hb : s.BUSY
  · rw [engineStep_idle (by exact hb)] at ht
    obtain rfl := Host.Outcome.next.inj ht
    exact .answer s.resp hr
  · rw [engineStep_busy (by exact hb)] at ht
    obtain ⟨op, ho, rfl⟩ := complete_cases ht
    exact .complete op hr hb hn ho

/-- Every next state is one of the changes. -/
theorem step_change {s t : State} (h : step s = .next t) : Change s t := by
  cases hp : s.pending with
  | nil =>
    rw [step_nil hp, quietStep] at h
    cases hr : s.rstLow
    · rw [if_neg (by simp [hr])] at h
      exact engine_change hr (by simp [hp]) (by rw [later_one_nil hp]; exact h)
    · rw [if_pos hr] at h
      obtain rfl := Host.Outcome.next.inj h
      exact .reset ⟨rfl, rfl, rfl, rfl, rfl, rfl, rfl, rfl, rfl, rfl, rfl⟩ (.inl hr)
        (by rw [hp]; exact hp)
  | cons x rest =>
    rw [step_cons (x := x) (by simp [hp])] at h
    unfold input at h
    cases hr : s.rstLow
    · rw [if_neg (by simp [State.later, hr])] at h
      have hx : s.pending.head? = some x := by simp [hp]
      cases x with
      | engine => exact engine_change hr (by simp [hp]) h
      | clock =>
        change clockEdge (s.later 1) = _ at h
        unfold clockEdge at h
        cases hb : s.BUSY
        · rw [if_neg (by simp [State.later, hb])] at h
          obtain rfl := Host.Outcome.next.inj h
          exact .answer s.resp hr
        · rw [if_pos (by simp [State.later, hb])] at h
          by_cases hc : s.CNT ≤ 1
          · rw [if_pos (by exact hc)] at h
            obtain ⟨op, ho, rfl⟩ := complete_cases h
            exact .complete op hr hb (by simp [hp]) ho
          · rw [if_neg (by exact hc)] at h
            obtain rfl := Host.Outcome.next.inj h
            exact .count hr hb (by omega) hx
      | rst low =>
        cases low
        · obtain rfl := Host.Outcome.next.inj h
          exact .answer s.resp hr
        · obtain rfl := Host.Outcome.next.inj h
          exact .reset ⟨rfl, rfl, rfl, rfl, rfl, rfl, rfl, rfl, rfl, rfl, rfl⟩ (.inr (.inl hx)) rfl
      | bus a =>
        have ho : s.Offers a := ⟨hr, hx⟩
        change access a (s.later 1) = _ at h
        cases ha : a.refused
        · rcases performed_form ha with ⟨off, rfl, h4, hw⟩ | ⟨off, d, rfl, h4, hw⟩
          · rw [access_r h4 hw] at h
            obtain rfl := Host.Outcome.next.inj h
            exact .answer _ hr
          · exact write_change ho h4 hw h
        · rw [access_refused ha] at h
          obtain rfl := Host.Outcome.next.inj h
          exact .answer _ hr
    · rw [if_pos (by simp [State.later, hr])] at h
      obtain rfl := Host.Outcome.next.inj h
      refine .reset ?_ (.inl hr) (by cases x <;> rfl)
      cases x <;> exact ⟨rfl, rfl, rfl, rfl, rfl, rfl, rfl, rfl, rfl, rfl, rfl⟩

/-- A step takes exactly the next input away. -/
theorem step_pending {s t : State} (h : step s = .next t) : t.pending = s.pending.drop 1 := by
  cases step_change h with
  | reset _ _ hp => exact hp
  | status d _ => simp [State.respond]
  | _ => rfl

/-- A run whose first step answers next goes on from there. -/
theorem run_succ {s t : State} (h : step s = .next t) (n : Nat) :
    Sys2Proof.core.run (n + 1) s = Sys2Proof.core.run n t := by
  have h' : Sys2Proof.core.step s = .next t := h
  simp only [Host.Core.run, h']

/-- A run that goes on has a first step that answers next. -/
theorem run_succ_next {s u : State} {n : Nat} (h : Sys2Proof.core.run (n + 1) s = .next u) :
    ∃ t, step s = .next t ∧ Sys2Proof.core.run n t = .next u := by
  cases hs : step s with
  | next t => exact ⟨t, rfl, by rw [← run_succ hs]; exact h⟩
  | fault r =>
    have h' : Sys2Proof.core.step s = .fault r := hs
    simp only [Host.Core.run, h', reduceCtorEq] at h
  | refused r =>
    have h' : Sys2Proof.core.step s = .refused r := hs
    simp only [Host.Core.run, h', reduceCtorEq] at h

/-- A run of n + m steps is a run of n followed by a run of m. -/
theorem run_add {n : Nat} (m : Nat) {s t : State} (h : Sys2Proof.core.run n s = .next t) :
    Sys2Proof.core.run (n + m) s = Sys2Proof.core.run m t := by
  induction n generalizing s with
  | zero =>
    obtain rfl := Host.Outcome.next.inj h
    rw [Nat.zero_add]
  | succ n ih =>
    obtain ⟨u, hs, hu⟩ := run_succ_next h
    rw [Nat.succ_add, run_succ hs]
    exact ih hu

end Sys2Proof.Machine
end

