-- ==== Sys2Proof/Laws/HostSyntax.lean ====
section
/-! SUPPORT. What a host's poll and one turn of an expansion do. -/

namespace Sys2Proof.Machine

@[simp] theorem offer_A (s : State) (x : Access) : (s.offer x).A = s.A := rfl
@[simp] theorem offer_B (s : State) (x : Access) : (s.offer x).B = s.B := rfl
@[simp] theorem offer_Z (s : State) (x : Access) : (s.offer x).Z = s.Z := rfl
@[simp] theorem offer_IE (s : State) (x : Access) : (s.offer x).IE = s.IE := rfl
@[simp] theorem offer_BUSY (s : State) (x : Access) : (s.offer x).BUSY = s.BUSY := rfl
@[simp] theorem offer_DONE (s : State) (x : Access) : (s.offer x).DONE = s.DONE := rfl
@[simp] theorem offer_ERR (s : State) (x : Access) : (s.offer x).ERR = s.ERR := rfl
@[simp] theorem offer_OVR (s : State) (x : Access) : (s.offer x).OVR = s.OVR := rfl
@[simp] theorem offer_ERRCODE (s : State) (x : Access) : (s.offer x).ERRCODE = s.ERRCODE := rfl
@[simp] theorem offer_CMDR (s : State) (x : Access) : (s.offer x).CMDR = s.CMDR := rfl
@[simp] theorem offer_CNT (s : State) (x : Access) : (s.offer x).CNT = s.CNT := rfl
@[simp] theorem offer_rstLow (s : State) (x : Access) : (s.offer x).rstLow = s.rstLow := rfl
@[simp] theorem offer_pending (s : State) (x : Access) :
    (s.offer x).pending = .bus x :: s.pending := rfl
@[simp] theorem offer_resp (s : State) (x : Access) : (s.offer x).resp = s.resp := rfl
@[simp] theorem offer_freeIdx (s : State) (x : Access) : (s.offer x).freeIdx = s.freeIdx := rfl

/-- A read offered first, with rst_n released: nothing but the answer changes (R58). -/
theorem step_offer_read {s : State} {off : Nat} (hr : s.rstLow = false) (h4 : off % 4 = 0)
    (h : off < 0x100) :
    step (s.offer (Access.r off)) = .next { s with resp := some (.data (s.busRead off)) } := by
  rw [step_offers (s := s.offer (Access.r off)) (x := Access.r off) ⟨hr, rfl⟩, access_r h4 h]
  rfl

/-- A read of the window offered first, with rst_n asserted: a free value, and the block at reset
(R250). -/
theorem step_offer_read_reset {s : State} {off : Nat} (hr : s.rstLow = true) (h4 : off % 4 = 0)
    (h : off < 0x100) :
    ∃ t, step (s.offer (Access.r off)) = .next t ∧ t.AtReset ∧
      t.resp = some (.data (Config.resetReadData s.freeIdx)) := by
  have ha : answerInReset (Access.r off) s.freeIdx = .data (Config.resetReadData s.freeIdx) := by
    change (if (Access.r off).refused && _ then _ else _) = _
    simp [r_refused, h4, h]
  refine ⟨inputInReset (.bus (Access.r off)) s, ?_,
    ⟨rfl, rfl, rfl, rfl, rfl, rfl, rfl, rfl, rfl, rfl, rfl⟩, congrArg some ha⟩
  rw [step_cons (s := s.offer (Access.r off)) (x := .bus (Access.r off)) rfl, input,
    if_pos (by exact hr)]
  rfl

/-- A host that has carried its expansion out makes no further access. -/
theorem perform_finished {e : Expansion} {r : HostRun} (h : e.next r.answers = none) (gaps : List Nat) :
    e.perform gaps r = .next r := by
  cases gaps <;> simp only [Expansion.perform, h]

/-- One turn of a host: the block's own transitions, then the access, then the rest. -/
theorem perform_turn {e : Expansion} {s t u : State} {x : Access} {answers : List Response} {gap : Nat}
    (hx : e.next answers = some x) (ht : Sys2Proof.core.run gap s = .next t)
    (hu : step (t.offer x) = .next u) (gaps : List Nat) :
    e.perform (gap :: gaps) { block := s, answers := answers } =
      e.perform gaps { block := u, answers := u.resp.toList ++ answers } := by
  simp only [Expansion.perform, hx, ht, hu]

/-- Bit 0 of STATUS is BUSY (R26). -/
theorem statusWord_busy (s : State) : s.statusWord.getLsbD 0 = s.BUSY :=
  BitVec.getLsbD_append.trans (by cases s.BUSY <;> rfl)

/-- WAIT's loop ends on a STATUS word exactly when BUSY = 0. -/
theorem wait_next_status (s : State) (answers : List Response) :
    (expandPseudo .wait).next (.data s.statusWord :: answers) =
      if s.BUSY then some (Access.r 0x008) else none := by
  change (if !s.statusWord.getLsbD 0 then none else some (Access.r 0x008)) = _
  rw [statusWord_busy]
  cases s.BUSY <;> rfl

/-- WAIT's loop goes on exactly with `R 0x008`. -/
theorem wait_next (answers : List Response) :
    (expandPseudo .wait).next answers = none ∨
      (expandPseudo .wait).next answers = some (Access.r 0x008) := by
  cases answers with
  | nil => exact .inr rfl
  | cons a l =>
    change (if pollEnds 0 a then none else some (Access.r 0x008)) = none ∨
      (if pollEnds 0 a then none else some (Access.r 0x008)) = some (Access.r 0x008)
    cases pollEnds 0 a
    · exact .inr rfl
    · exact .inl rfl

end Sys2Proof.Machine
end

