-- ==== Sys2Proof/Laws/PerInstr.lean ====
section
/-! SUPPORT. Statements about every instruction as syntax, one lemma per constructor. -/

namespace Sys2Proof.Laws.EncodedWrite

/-- The encoding of an instruction is a host step `W off, d` to CMD, CTRL or STATUS that the port
performs (spec 30_encoding.md R80, R86, R89; 20_memory.md R53). -/
def Statement (i : Instr) : Prop :=
  encode i = Access.w (encodeOffset i) (encodeWord i) ∧ (encode i).wf = true ∧
    encodeOffset i ∈ [0x004, 0x008, 0x00C]

/-- It is enough that the offset is one of the three. -/
theorem of_offset {i : Instr} (h : encodeOffset i ∈ [0x004, 0x008, 0x00C]) : Statement i := by
  refine ⟨rfl, ?_, h⟩
  rw [Access.wf, encode, w_refused]
  simp only [List.mem_cons, List.not_mem_nil, or_false] at h
  rcases h with h | h | h <;> rw [h] <;> rfl

theorem montmulP : Statement .montmulP := of_offset (by simp [encodeOffset])
theorem montmulN : Statement .montmulN := of_offset (by simp [encodeOffset])
theorem tomontP : Statement .tomontP := of_offset (by simp [encodeOffset])
theorem tomontN : Statement .tomontN := of_offset (by simp [encodeOffset])
theorem frommontP : Statement .frommontP := of_offset (by simp [encodeOffset])
theorem frommontN : Statement .frommontN := of_offset (by simp [encodeOffset])
theorem modmulP : Statement .modmulP := of_offset (by simp [encodeOffset])
theorem modmulN : Statement .modmulN := of_offset (by simp [encodeOffset])
theorem illegalCmd (word : Word) : Statement (.illegalCmd word) := of_offset (by simp [encodeOffset])
theorem srst : Statement .srst := of_offset (by simp [encodeOffset])
theorem ieWrite (ie : Bool) : Statement (.ieWrite ie) := of_offset (by simp [encodeOffset])
theorem clrDone (ovr : Bool) : Statement (.clrDone ovr) := of_offset (by simp [encodeOffset])
theorem clrOvr (done : Bool) : Statement (.clrOvr done) := of_offset (by simp [encodeOffset])

end Sys2Proof.Laws.EncodedWrite
end

