-- ==== Sys2Proof/Tests/Slice0.lean ====
section
/-! SUPPORT. The model's own tests: ill-formed terms refused, words written out from the spec's tables,
the vectors of spec 95_test_vectors.md, and a witness for the hypotheses of each statement. -/

namespace Sys2Proof.Tests

open Sys2Proof.Machine

/-! ## Helpers -/

/-- A fresh idle block with operands loaded. -/
def idle (a b : Elem) : State := { State.reset with A := a, B := b }

/-- A block with a command in flight, `c` = {MSEL, OP}. -/
def busy (a b : Elem) (c : BitVec 5) : State :=
  { State.reset with A := a, B := b, BUSY := true, CMDR := c, CNT := 1 }

/-- The state with one input offered. -/
def offering (s : State) (x : Access) : State := { s with pending := [.bus x] }

/-- A property of the next state, false when there is none. -/
def nextHas (o : Host.Outcome State Fault Refusal) (p : State → Bool) : Bool :=
  match o with
  | .next t => p t
  | .fault _ | .refused _ => false

/-- Z after an instruction and the Engine's completion. -/
def resultOf (i : Instr) (a b : Elem) : Option Elem :=
  match exec i (idle a b) with
  | .next t =>
    match engineStep t with
    | .next u => if u.BUSY then none else some u.Z
    | .fault _ | .refused _ => none
  | .fault _ | .refused _ => none

/-- STATUS after an instruction. -/
def statusOf (i : Instr) (a b : Elem) : Option Word :=
  match exec i (idle a b) with
  | .next t => some t.statusWord
  | .fault _ | .refused _ => none

def modPE : Elem := BitVec.ofNat 256 Config.modP
def modNE : Elem := BitVec.ofNat 256 Config.modN

/-- Gx and Gy of 95_test_vectors.md section 2. -/
def gx : Elem := 0x32C4AE2C1F1981195F9904466A39C9948FE30BBFF2660BE1715A4589334C74C7#256
def gy : Elem := 0xBC3736A2F4F6779C59BDCEE36B692153D0A9877CC62A474002DF32E52139F0A0#256

/-! ## Ill-formed terms are refused -/

theorem test_wf_refuses_legal_word : (Instr.illegalCmd 0x14#32).wf = false := by decide
theorem test_wf_refuses_clrOvr_with_done : (Instr.clrOvr true).wf = false := by decide
theorem test_wf_refuses_misaligned_read : (Access.read 0x002 32).wf = false := by decide
theorem test_wf_refuses_misaligned_write : (Access.w 0x006 1#32).wf = false := by decide
theorem test_wf_refuses_narrow_read : (Access.read 0x000 16).wf = false := by decide
theorem test_wf_refuses_wide_write : (Access.write 0x020 64 0xF#4 0#32).wf = false := by decide
theorem test_wf_refuses_partial_lanes : (Access.write 0x020 32 0x7#4 0#32).wf = false := by decide
theorem test_wf_refuses_outside : (Access.w 0x100 1#32).wf = false := by decide
theorem test_wf_accepts_last_word : (Access.r 0x0FC).wf = true := by decide

/-! ## Words written out from 30_encoding.md R80, R86, R88 -/

theorem test_decode_montmulP :
    decode (Access.w 0x00C 0b00000000000000000000000000000001#32) = .ok .montmulP := by rfl
theorem test_decode_montmulN :
    decode (Access.w 0x00C 0b00000000000000000000000000010001#32) = .ok .montmulN := by rfl
theorem test_decode_tomontP :
    decode (Access.w 0x00C 0b00000000000000000000000000000010#32) = .ok .tomontP := by rfl
theorem test_decode_tomontN :
    decode (Access.w 0x00C 0b00000000000000000000000000010010#32) = .ok .tomontN := by rfl
theorem test_decode_frommontP :
    decode (Access.w 0x00C 0b00000000000000000000000000000011#32) = .ok .frommontP := by rfl
theorem test_decode_frommontN :
    decode (Access.w 0x00C 0b00000000000000000000000000010011#32) = .ok .frommontN := by rfl
theorem test_decode_modmulP :
    decode (Access.w 0x00C 0b00000000000000000000000000000100#32) = .ok .modmulP := by rfl
theorem test_decode_modmulN :
    decode (Access.w 0x00C 0b00000000000000000000000000010100#32) = .ok .modmulN := by rfl
theorem test_decode_illegal_op5 :
    decode (Access.w 0x00C 0x00000015#32) = .ok (.illegalCmd 0x15#32) := by rfl
theorem test_decode_illegal_reserved_bit :
    decode (Access.w 0x00C 0x80000001#32) = .ok (.illegalCmd 0x80000001#32) := by rfl
theorem test_decode_srst_ignores_ie :
    decode (Access.w 0x004 0b00000000000000000000000000000011#32) = .ok .srst := by rfl
theorem test_decode_ieWrite_ignores_reserved :
    decode (Access.w 0x004 0xFFFFFFFD#32) = .ok (.ieWrite true) := by rfl
theorem test_decode_clrDone_with_ovr :
    decode (Access.w 0x008 0b00000000000000000000000000001010#32) = .ok (.clrDone true) := by rfl
theorem test_decode_clrOvr :
    decode (Access.w 0x008 0b00000000000000000000000000001000#32) = .ok (.clrOvr false) := by rfl
theorem test_decode_status_no_action :
    decode (Access.w 0x008 0xFFFFFFF5#32) = .error .statusNoAction := by rfl
theorem test_decode_operand_word : decode (Access.w 0x05C 1#32) = .error .operandWord := by rfl
theorem test_decode_ignored : decode (Access.w 0x060 1#32) = .error .ignoredOffset := by rfl
theorem test_decode_table_words :
    [decodeTableWord 32 0x01, decodeTableWord 32 0x14, decodeTableWord 32 0x05,
      decodeTableWord 8 0x00, decodeTableWord 8 0x02, decodeTableWord 8 0x08,
      decodeTableWord 8 0x0A] =
    [some .montmulP, some .modmulN, some (.illegalCmd 5#32), some (.ieWrite false), some .srst,
      some (.clrOvr false), some (.clrDone true)] := by decide
theorem test_fetch_word_runs_first :
    nextHas (step (State.reset.withFetchWord 32 0x12)) (fun t => t.BUSY && t.CMDR == 0x12#5)
      = true := by decide

/-! ## The commands: vectors of 95_test_vectors.md section 2 -/

theorem test_montmulP_gx_gy : resultOf .montmulP gx gy =
    some 0xF58B289869DD81686166EED2669FD7425E5BB90A194718A3C5B648D36C14C3FE#256 := by decide
theorem test_montmulP_status_E_RANGE_A : statusOf .montmulP modPE 1#256 = some 0x26#32 := by decide
theorem test_montmulN_gx_gy : resultOf .montmulN gx gy =
    some 0x26D5193A26F28B79646CF88095B3CB674BA141B96C2ACEC3291206E100EDB6FB#256 := by decide
theorem test_montmulN_status_E_RANGE_B : statusOf .montmulN 1#256 modNE = some 0x36#32 := by decide
theorem test_tomontP_ignores_B : resultOf .tomontP 3#256 (BitVec.allOnes 256) =
    some 0x0000000300000000000000000000000000000002FFFFFFFD0000000000000003#256 := by decide
theorem test_tomontP_modN_is_below_modP : statusOf .tomontP modNE 0#256 = some 0x01#32 := by decide
theorem test_tomontN_last : resultOf .tomontN (modNE - 1#256) 0#256 =
    some 0xFFFFFFFDFFFFFFFFFFFFFFFFFFFFFFFEE407BED6438C0A56A777E81273AA8246#256 := by decide
theorem test_tomontN_status_E_RANGE_A : statusOf .tomontN modNE 0#256 = some 0x26#32 := by decide
theorem test_frommontP_last : resultOf .frommontP (modPE - 1#256) 0#256 =
    some 0x00000003FFFFFFFA00000003FFFFFFFD00000001FFFFFFFA00000006FFFFFFFB#256 := by decide
theorem test_frommontN_last : resultOf .frommontN (modNE - 1#256) 0#256 =
    some 0x90C6ECCFEC544B7357E45EE87A7726FE811E8DF2E2300B193FD2B803D21C0B39#256 := by decide
theorem test_frommontN_status_above : statusOf .frommontN modPE 0#256 = some 0x26#32 := by decide
theorem test_modmulP_gx_gy : resultOf .modmulP gx gy =
    some 0xEDD7E745BDC4630CCFA1DA1057033A525346DBF202F082F3C431349991ACE76A#256 := by decide
theorem test_modmulP_status_E_RANGE_B : statusOf .modmulP 5#256 modPE = some 0x36#32 := by decide
theorem test_modmulN_gx_gx : resultOf .modmulN gx gx =
    some 0x82D3D1B296D3A3803888B7FFC78F23ECA824E7EC8D7DDAF231FFB0D256A19DA2#256 := by decide
theorem test_modmulN_E_RANGE_A_first : statusOf .modmulN modNE modNE = some 0x26#32 := by decide
theorem test_cios_gx_gy : montMulCios Config.modP gx.toNat gy.toNat =
    0xF58B289869DD81686166EED2669FD7425E5BB90A194718A3C5B648D36C14C3FE := by decide

/-! ## Control, status and bus accesses: section 2.1 -/

theorem test_illegal_E_OPCODE_beats_range :
    nextHas (step (offering (idle modNE 0#256) (Access.w 0x00C 0x05#32)))
      (fun t => t.statusWord == 0x16#32 && t.CMDR == 5#5 && t.A == modNE) = true := by decide
theorem test_illegal_keeps_five_bits :
    nextHas (step (offering State.reset (Access.w 0x00C 0xFFFFFFE1#32)))
      (fun t => t.statusWord == 0x16#32 && t.busRead 0x00C == 1#32) = true := by decide
theorem test_srst_with_ie_bit :
    nextHas (step (offering { busy 9#256 1#256 1#5 with IE := true } (Access.w 0x004 3#32)))
      (fun t => t.busRead 0x020 == 0#32 && !t.IE && !t.BUSY && t.statusWord == 0#32) = true := by
  decide
theorem test_ie_write_while_busy :
    nextHas (step (offering (busy 1#256 1#256 1#5) (Access.w 0x004 1#32)))
      (fun t => t.IE && t.BUSY && t.statusWord == 1#32) = true := by decide
theorem test_clrDone_after_error :
    nextHas (step (offering { State.reset with IE := true, DONE := true, ERR := true, ERRCODE := 1#4 }
      (Access.w 0x008 2#32))) (fun t => t.statusWord == 0#32 && t.IE && !t.irq) = true := by decide
theorem test_status_write_without_w1c :
    nextHas (step (offering { State.reset with IE := true, DONE := true, ERR := true, ERRCODE := 1#4 }
      (Access.w 0x008 0xFFFFFFF5#32))) (fun t => t.statusWord == 0x16#32 && t.irq) = true := by decide
theorem test_clrOvr_while_busy :
    nextHas (step (offering { busy 1#256 1#256 1#5 with OVR := true } (Access.w 0x008 8#32)))
      (fun t => t.statusWord == 1#32) = true := by decide
theorem test_cmd_dropped_while_busy :
    nextHas (step (offering (busy 1#256 1#256 1#5) (Access.w 0x00C 4#32)))
      (fun t => t.statusWord == 9#32 && t.CMDR == 1#5 && t.resp == some .ok) = true := by decide
theorem test_operand_dropped_while_busy :
    nextHas (step (offering (busy 1#256 1#256 1#5) (Access.w 0x05C 5#32)))
      (fun t => t.statusWord == 9#32 && t.B == 1#256) = true := by decide
theorem test_operand_word_seven :
    nextHas (step (offering (idle gx gy) (Access.w 0x03C 0xFFFFFFFE#32))) (fun t =>
      t.A == 0xFFFFFFFE1F1981195F9904466A39C9948FE30BBFF2660BE1715A4589334C74C7#256 && t.B == gy)
      = true := by decide
theorem test_read_Z_word_seven :
    nextHas (step (offering { State.reset with Z := gx } (Access.r 0x07C)))
      (fun t => t.resp == some (.data 0x32C4AE2C#32)) = true := by decide
theorem test_read_misaligned :
    nextHas (step (offering State.reset (Access.r 0x001))) (fun t => t.resp == some .busError)
      = true := by decide
theorem test_write_outside_window :
    nextHas (step (offering (busy 1#256 1#256 1#5) (Access.w 0x100 1#32)))
      (fun t => t.resp == some .busError && !t.OVR) = true := by decide
theorem test_write_Z_ignored :
    nextHas (step (offering State.reset (Access.w 0x060 0x12345678#32)))
      (fun t => t.Z == 0#256 && t.resp == some .ok) = true := by decide
theorem test_engine_completes_when_quiet :
    nextHas (step { busy 3#256 5#256 1#5 with IE := true }) (fun t => t.irq && t.Z ==
      0xFFFFFFC300000059FFFFFFC40000002CFFFFFFE10000005AFFFFFF970000004A#256) = true := by decide
theorem test_clock_counts_down :
    nextHas (step { busy 3#256 5#256 1#5 with CNT := 3, pending := [.clock] })
      (fun t => t.BUSY && t.CNT == 2) = true := by decide
theorem test_clock_completes :
    nextHas (step { busy 3#256 5#256 4#5 with pending := [.clock] })
      (fun t => t.DONE && t.Z == 15#256) = true := by decide
theorem test_reset_pin_aborts :
    nextHas (step { busy 3#256 5#256 4#5 with pending := [.rst true] })
      (fun t => t.rstLow && !t.BUSY && !t.DONE && t.A == 0#256) = true := by decide
theorem test_reset_pin_write_has_no_effect :
    nextHas (step { State.reset with rstLow := true, pending := [.bus (Access.w 0x020 7#32)] })
      (fun t => t.A == 0#256 && t.freeIdx == 1) = true := by decide
theorem test_bytes_big_endian :
    valueOfBytes [0x01#8, 0x02#8] = 0x0102 := by decide

/-! ## Witnesses: concrete states and operands that meet the statements' hypotheses -/

theorem witness_DecodeOfEncode :
    [Instr.illegalCmd 0#32, .illegalCmd 0x24#32, .montmulP, .srst, .ieWrite true, .clrDone true,
      .clrOvr false].all Instr.wf = true := by decide

theorem witness_DecodedIsWellFormed :
    decode (Access.w 0x00C 0x01#32) = .ok .montmulP ∧ decode (Access.w 0x004 2#32) = .ok .srst ∧
      decode (Access.w 0x008 8#32) = .ok (.clrOvr false) := ⟨rfl, rfl, rfl⟩

theorem witness_StepRunsDecodedInstruction :
    (offering State.reset (Access.w 0x00C 0x01#32)).Offers (Access.w 0x00C 0x01#32) ∧
      decode (Access.w 0x00C 0x01#32) = .ok .montmulP := ⟨by decide, rfl⟩

theorem witness_FetchWordRuns : decodeTableWord 32 0x03 = some .frommontP := by decide

theorem witness_ReadReturnsRegister :
    [0x000, 0x004, 0x008, 0x00C, 0x010, 0x01C, 0x020, 0x03C, 0x040, 0x05C, 0x060, 0x07C, 0x080,
      0x0FC].all (fun off => decide (off % 4 = 0 ∧ off < 0x100 ∧
        (offering State.reset (Access.r off)).Offers (Access.r off))) = true := by decide

theorem witness_RefusedAccessChangesNothing :
    [Access.read 0x001 32, .read 0x100 32, .read 0x000 8, .write 0x102 32 0xF#4 0#32,
      .write 0x100 32 0xF#4 0#32, .write 0x020 64 0xF#4 0#32, .write 0x020 32 0xE#4 0#32].all
      (fun x => x.refused && decide ((offering State.reset x).Offers x)) = true := by decide

theorem witness_OperandWordWrite :
    [0, 7].all (fun i => decide (i < 8 ∧
      (offering State.reset (Access.w (0x020 + 4 * i) 1#32)).Offers (Access.w (0x020 + 4 * i) 1#32) ∧
      (offering (busy 0#256 0#256 1#5) (Access.w (0x040 + 4 * i) 1#32)).Offers
        (Access.w (0x040 + 4 * i) 1#32))) = true := by decide

theorem witness_OperandWriteReadsBack :
    [0x020, 0x03C, 0x040, 0x05C].all (fun off => decide (off % 4 = 0 ∧ 0x020 ≤ off ∧ off < 0x060 ∧
      (offering State.reset (Access.w off 1#32)).BUSY = false ∧
      (offering State.reset (Access.w off 1#32)).Offers (Access.w off 1#32))) = true := by decide

theorem witness_IgnoredWritesAndReservedReads :
    [0x000, 0x010, 0x01C, 0x060, 0x07C, 0x0FC].all (fun off => decide (off % 4 = 0 ∧
      (off = 0x000 ∨ (0x010 ≤ off ∧ off ≤ 0x01C) ∨ (0x060 ≤ off ∧ off ≤ 0x0FC)) ∧
      (offering State.reset (Access.w off 1#32)).Offers (Access.w off 1#32))) = true ∧
    [0x010, 0x01C, 0x080, 0x0FC].all (fun off => decide (off % 4 = 0 ∧
      ((0x010 ≤ off ∧ off ≤ 0x01C) ∨ (0x080 ≤ off ∧ off ≤ 0x0FC)) ∧
      (offering State.reset (Access.r off)).Offers (Access.r off))) = true := by decide

theorem witness_BytesToWords : (List.replicate 32 0xAB#8).length = 32 ∧ 0 < 8 ∧ 7 < 8 := by decide

/-- The premise of the arithmetic statements, at both moduli and at both ends of its range. -/
theorem witness_ModulusPremise :
    [Config.modP, Config.modN, 2 ^ 255 + 1, 2 ^ 256 - 1].all
      (fun m => decide (m % 2 = 1 ∧ 2 ^ 255 < m ∧ m < 2 ^ 256)) = true := by decide

theorem witness_MontgomeryLaws :
    0 < modulus .p ∧ Config.modP - 1 < modulus .p ∧ 0 < modulus .n ∧ Config.modN - 1 < modulus .n := by
  decide

theorem witness_MontmulCompletes :
    (idle gx gy).BUSY = false ∧ (idle gx gy).A.toNat < Config.modP ∧
      (idle gx gy).B.toNat < Config.modP ∧ (idle gx gy).A.toNat < Config.modN ∧
      (idle gx gy).B.toNat < Config.modN := by decide

theorem witness_TomontCompletes :
    (idle (modPE - 1#256) modPE).BUSY = false ∧ (idle (modPE - 1#256) modPE).A.toNat < Config.modP ∧
      (idle (modNE - 1#256) modPE).A.toNat < Config.modN := by decide

theorem witness_FrommontCompletes :
    (idle 0#256 (BitVec.allOnes 256)).BUSY = false ∧
      (idle 0#256 (BitVec.allOnes 256)).A.toNat < Config.modP ∧
      (idle 0#256 (BitVec.allOnes 256)).A.toNat < Config.modN := by decide

theorem witness_ModmulCompletes :
    (idle 0#256 (modNE - 1#256)).BUSY = false ∧ (idle 0#256 (modNE - 1#256)).A.toNat < Config.modP ∧
      (idle 0#256 (modNE - 1#256)).B.toNat < Config.modP ∧
      (idle 0#256 (modNE - 1#256)).A.toNat < Config.modN ∧
      (idle 0#256 (modNE - 1#256)).B.toNat < Config.modN := by decide

/-- One state for each of the five outcomes of a CMD write. -/
theorem witness_CommandWriteOutcome :
    [(busy 0#256 0#256 1#5, 0x04#32), (State.reset, 0x00#32), (State.reset, 0x24#32),
      (idle modPE 0#256, 0x01#32), (idle 0#256 modNE, 0x11#32), (idle 0#256 modNE, 0x12#32)].all
      (fun p => decide ((offering p.1 (Access.w 0x00C p.2)).Offers (Access.w 0x00C p.2)))
      = true := by decide

theorem witness_IllegalCommandEndsInError :
    State.reset.BUSY = false ∧ State.reset.OVR = false ∧ (0x15#32).extractLsb' 5 27 = 0#27 ∧
      5 ≤ ((0x15#32).extractLsb' 0 4).toNat ∧ ((0x10#32).extractLsb' 0 4).toNat = 0 ∧
      (0x20#32).extractLsb' 5 27 ≠ 0#27 := by decide

theorem witness_FailedCommandTouchesStatusOnly :
    (idle modPE 0#256).BUSY = false ∧ Config.modP ≤ (idle modPE 0#256).A.toNat ∧
      Config.modN ≤ (idle modNE 0#256).A.toNat ∧
      ((idle 0#256 modPE).A.toNat < Config.modP ∧ Config.modP ≤ (idle 0#256 modPE).B.toNat) ∧
      ((idle 0#256 modNE).A.toNat < Config.modN ∧ Config.modN ≤ (idle 0#256 modNE).B.toNat) := by
  decide

theorem witness_DroppedWhileBusy :
    [0x00C, 0x020, 0x03C, 0x040, 0x05C].all (fun off =>
      decide ((busy 1#256 1#256 1#5).BUSY = true ∧ off % 4 = 0 ∧
        (off = 0x00C ∨ (0x020 ≤ off ∧ off < 0x060)) ∧
        (offering (busy 1#256 1#256 1#5) (Access.w off 1#32)).Offers (Access.w off 1#32)) &&
      nextHas (engineStep ((offering (busy 1#256 1#256 1#5) (Access.w off 1#32)).later 1))
        (fun _ => true)) = true := by decide

theorem witness_SoftReset :
    (0x3#32).getLsbD 1 = true ∧
      (offering (busy 1#256 1#256 1#5) (Access.w 0x004 3#32)).Offers (Access.w 0x004 3#32) := by decide

theorem witness_InterruptEnableWrite :
    (0xFFFFFFFD#32).getLsbD 1 = false ∧ (offering State.reset (Access.w 0x004 0xFFFFFFFD#32)).Offers
      (Access.w 0x004 0xFFFFFFFD#32) := by decide

theorem witness_StatusWriteClears :
    (offering (busy 1#256 1#256 1#5) (Access.w 0x008 2#32)).Offers (Access.w 0x008 2#32) ∧
      (offering (busy 1#256 1#256 1#5) (Access.w 0x008 2#32)).Inv ∧
      (2#32).getLsbD 3 = false := by decide

theorem witness_EngineTurn :
    (busy 1#256 1#256 0x11#5).Inv ∧ (busy 1#256 1#256 0x11#5).BUSY = true ∧
      (busy 1#256 1#256 0x11#5).pending = [] ∧
      ({ busy 1#256 1#256 0x11#5 with pending := [.engine] } : State).pending.head? = some .engine ∧
      State.reset.rstLow = false ∧ State.reset.BUSY = false ∧ State.reset.pending = [] := by decide

/-- For CompletionFrame and EngineResult: one state for each OP. -/
theorem witness_EngineResult :
    [0x01#5, 0x02#5, 0x03#5, 0x04#5, 0x11#5, 0x12#5, 0x13#5, 0x14#5].all (fun c =>
      decide ((busy gx gy c).R30 ∧ (busy gx gy c).BUSY = true) &&
        nextHas (engineStep (busy gx gy c)) (fun t => t.DONE)) = true := by decide

theorem witness_ConversionsIgnoreB : (idle 5#256 0#256).BUSY = false := by decide

theorem witness_ResetValues :
    ({ busy 1#256 1#256 1#5 with pending := [.rst true] } : State).pending.head? = some (.rst true) := by
  decide

theorem witness_HeldWhileResetAsserted :
    [Input.bus (Access.r 0x000), .bus (Access.w 0x020 1#32), .engine, .clock, .rst true, .rst false].all
      (fun x => decide (({ State.reset with rstLow := true, pending := [x] } : State).rstLow = true ∧
        ({ State.reset with rstLow := true, pending := [x] } : State).pending.head? = some x)) = true ∧
    ({ State.reset with rstLow := true } : State).pending = [] := by decide

/-- Both causes, with the release of rst_n and accesses after the reset. -/
theorem witness_AbortedCommandNeverCompletes :
    let tail : List Input := [.engine, .rst false, .bus (Access.w 0x020 7#32), .bus (Access.w 0x004 1#32),
      .clock, .bus (Access.r 0x060)]
    let s : State := { busy 1#256 1#256 1#5 with pending := .rst true :: tail }
    let r : State := { busy 1#256 1#256 1#5 with pending := .bus (Access.w 0x004 2#32) :: tail }
    (s.BUSY = true ∧ s.pending.head? = some (.rst true) ∧ s.pending.drop 1 = tail) ∧
    (r.BUSY = true ∧ (2#32).getLsbD 1 = true ∧ r.Offers (Access.w 0x004 2#32) ∧
      r.pending.drop 1 = tail) ∧
    ∀ x ∈ tail, ∀ d : Word, x ≠ .bus (Access.w 0x00C d) := by
  refine ⟨by decide, by decide, fun x hx d => ?_⟩
  simp only [List.mem_cons, List.not_mem_nil, or_false] at hx
  rcases hx with rfl | rfl | rfl | rfl | rfl | rfl <;> simp [Access.w, Access.r]

theorem witness_AbortedCommandNeverCompletes_quiet : ∀ x ∈ [Input.engine, .rst false, .clock],
    (∀ d : Word, x ≠ .bus (Access.w 0x00C d)) ∧ ∀ a : Access, x ≠ .bus a := by
  simp

/-- For StepKeepsInvariant and NeverStuck: invariant states of each kind, each with a next state. -/
theorem witness_StepKeepsInvariant :
    [State.reset, busy gx gy 0x01#5, { State.reset with rstLow := true },
      { State.reset with DONE := true, ERR := true, ERRCODE := 3#4, CMDR := 4#5 },
      { busy gx gy 0x14#5 with pending := [.bus (Access.w 0x020 0#32)] }].all
      (fun s => decide s.Inv && nextHas (step s) (fun t => decide t.Inv)) = true := by decide

theorem witness_ResultChanges :
    (busy 3#256 5#256 4#5).BusyStatusClear ∧
    nextHas (step (busy 3#256 5#256 4#5)) (fun t => decide (t.Z ≠ (busy 3#256 5#256 4#5).Z)) = true ∧
    nextHas (step { State.reset with Z := gx, pending := [.rst true] })
      (fun t => decide (t.Z ≠ gx)) = true := by decide

theorem witness_OperandsFrozenWhileBusy :
    nextHas (step (offering (idle 0#256 0#256) (Access.w 0x020 1#32)))
      (fun t => decide (t.A ≠ 0#256)) = true ∧
    nextHas (step (offering (idle 0#256 0#256) (Access.w 0x05C 1#32)))
      (fun t => decide (t.B ≠ 0#256)) = true := by decide

theorem witness_CommandInFlightUndisturbed :
    let s : State := { busy gx gy 0x11#5 with pending := [.bus (Access.w 0x020 1#32),
      .bus (Access.w 0x004 1#32), .bus (Access.r 0x102), .bus (Access.w 0x00C 4#32), .engine] }
    s.Inv ∧ s.BUSY = true ∧ 4 ≤ s.pending.length := by decide

theorem witness_CommandInFlightUndisturbed_inputs : ∀ x ∈
    [Input.bus (Access.w 0x020 1#32), .bus (Access.w 0x004 1#32)], ∃ a, x = .bus a ∧
      ∀ d, a = Access.w 0x004 d → d.getLsbD 1 = false := by
  intro x hx
  simp only [List.mem_cons, List.not_mem_nil, or_false] at hx
  rcases hx with rfl | rfl
  · exact ⟨_, rfl, fun d h => by simp [Access.w] at h⟩
  · refine ⟨_, rfl, fun d h => ?_⟩
    obtain rfl : 1#32 = d := by simpa [Access.w] using h
    decide

theorem witness_ResultStandsWhileIdle : ∀ x ∈
    ({ State.reset with Z := gx, pending := [.bus (Access.r 0x060), .clock, .engine] } : State).pending,
    x ≠ .rst true ∧ (∀ d, x ≠ .bus (Access.w 0x00C d)) ∧
      ∀ d, x = .bus (Access.w 0x004 d) → d.getLsbD 1 = false := by
  intro x hx
  simp only [List.mem_cons, List.not_mem_nil, or_false] at hx
  rcases hx with rfl | rfl | rfl <;> simp [Access.r, Access.w]

theorem witness_CommandRegisterChanges :
    nextHas (step (offering State.reset (Access.w 0x00C 0x1F#32)))
      (fun t => decide (t.CMDR ≠ State.reset.CMDR)) = true := by decide

theorem witness_InterruptEnableChanges :
    nextHas (step (offering State.reset (Access.w 0x004 1#32)))
      (fun t => decide (t.IE ≠ State.reset.IE)) = true := by decide

theorem witness_OverrunIsSticky :
    nextHas (step (offering (busy 1#256 1#256 1#5) (Access.w 0x00C 1#32))) (fun t => t.OVR) = true ∧
    nextHas (step (offering { State.reset with OVR := true } (Access.w 0x008 8#32)))
      (fun t => !t.OVR) = true := by decide

theorem witness_BusyRisesOnlyByAcceptance :
    nextHas (step (offering State.reset (Access.w 0x00C 0x01#32))) (fun t => t.BUSY) = true := by decide

theorem witness_InterruptLevelChanges :
    nextHas (step { busy 1#256 1#256 1#5 with IE := true }) (fun t => t.irq) = true ∧
    nextHas (step (offering { State.reset with IE := true } (Access.w 0x00C 0#32)))
      (fun t => t.irq) = true ∧
    nextHas (step (offering { State.reset with DONE := true } (Access.w 0x004 1#32)))
      (fun t => t.irq) = true ∧
    nextHas (step (offering { State.reset with IE := true, DONE := true } (Access.w 0x008 2#32)))
      (fun t => !t.irq) = true ∧
    nextHas (step (offering { State.reset with IE := true, DONE := true } (Access.w 0x00C 1#32)))
      (fun t => !t.irq) = true ∧
    nextHas (step (offering { State.reset with IE := true, DONE := true } (Access.w 0x004 2#32)))
      (fun t => !t.irq) = true := by decide

theorem witness_TimedCompletion :
    let s : State := { busy 1#256 1#256 1#5 with
      CNT := Config.lat Op.montmul.code,
      pending := List.replicate (Config.lat Op.montmul.code) .clock ++ [] }
    s.Inv ∧ s.BUSY = true ∧ s.CMDR = MSel.p.bit ++ Op.montmul.code ∧
      s.CNT = Config.lat Op.montmul.code := by
  refine ⟨⟨(by decide : (busy 1#256 1#256 1#5).R30), ⟨fun _ => Nat.succ_pos _, fun _ => rfl⟩, ?_, ?_⟩,
    rfl, rfl, rfl⟩
  · intro h
    cases h
  · exact (by decide : (busy 1#256 1#256 1#5).ResultReduced)

theorem witness_ClockRefinesEngine :
    let s : State := { busy 1#256 1#256 1#5 with CNT := 2, pending := [.clock, .clock] }
    s.Inv ∧ s.rstLow = false ∧ s.pending.head? = some .clock ∧
      nextHas (step s) (fun t => decide (t.CNT = 1)) = true := by decide

theorem witness_LoadFillsOperand :
    let s : State := { State.reset with pending := (expandPseudo (.lda gx)).straight.map .bus ++ [.engine] }
    let r : State := { State.reset with pending := (expandPseudo (.ldb gx)).straight.map .bus ++ [.engine] }
    s.BUSY = false ∧ s.rstLow = false ∧ r.BUSY = false ∧ r.rstLow = false := by decide

theorem witness_ReadResultGivesZ :
    let s : State := { State.reset with Z := gx, pending := (expandPseudo .rdz).straight.map .bus ++ [] }
    s.rstLow = false := by decide

theorem witness_PseudoInstructionsDecode : commandOfMnemonic "TOMONT.N" = some .tomontN := by decide

/-- A command in flight with an access pending: the first poll finds it busy, the second, made after
the access and the Engine's turn, ends the loop. -/
theorem test_wait_polls_until_idle :
    let s : State := { busy 3#256 5#256 4#5 with pending := [.bus (Access.r 0x060)] }
    (match (expandPseudo .wait).perform [0, 2, 0] { block := s, answers := [] } with
      | .next r => r.answers == [.data 2#32, .data 1#32] && r.block.Z == 15#256
      | .fault _ | .refused _ => false) = true := by decide

theorem witness_WaitEndsWhenIdle :
    let s : State := { busy 3#256 5#256 4#5 with pending := [.bus (Access.r 0x060)] }
    s.rstLow = false ∧ s.Inv ∧ (∀ x ∈ s.pending, x ≠ .rst true) ∧ s.pending.length < 2 ∧
      (expandPseudo .wait).next [] ≠ none ∧ (expandPseudo .wait).next [.data 1#32] ≠ none ∧
      (expandPseudo .wait).next [.data 2#32] = none := by decide

end Sys2Proof.Tests
end

section
/-! PROOFS. Family 00_scope.md: the inverse of R (R10). -/

namespace Sys2Proof.Machine

theorem invR_lt {m : Nat} (h : 0 < m) : invR m < m := Nat.mod_lt _ h

/-- A residue that R takes to 1 is the inverse of R: R can be cancelled modulo an odd m. -/
theorem eq_invR {m y : Nat} (h : m % 2 = 1) (hy : y < m) (e : 2 ^ 256 * y ≡ 1 [MOD m]) :
    y = invR m := by
  have hcancel : y ≡ invR m [MOD m] :=
    Nat.ModEq.cancel_left_of_coprime (Nat.coprime_comm.1 (radix_coprime h))
      (e.trans (radix_mul_invR h).symm)
  exact hcancel.eq_of_lt_of_lt hy (invR_lt (by omega))

/-- Settles O16: (m + 1) / 2 is the inverse of 2, so its 256th power is an inverse of R, and R is
coprime to the odd m, so there is no other. -/
theorem inverseOfRadixUnique : Obligations.InverseOfRadixUnique := by
  intro m hodd hlow _
  have hone : 1 % m = 1 := Nat.mod_eq_of_lt (by omega)
  refine ⟨invR_lt (by omega), ?_, fun y hy hinv => ?_⟩
  · exact Eq.trans (radix_mul_invR hodd) hone
  · exact eq_invR hodd hy (hinv.trans hone.symm)

end Sys2Proof.Machine
end

section
/-! PROOFS. Family 10_state.md: the invariant (R30, R31). -/

namespace Sys2Proof.Machine

/-! ## The invariant of a block at reset, idle and busy -/

theorem resetBlock_atReset (s : State) : s.resetBlock.AtReset :=
  ⟨rfl, rfl, rfl, rfl, rfl, rfl, rfl, rfl, rfl, rfl, rfl⟩

theorem heldInReset_of_released {t : State} (hr : t.rstLow = false) : t.HeldInReset :=
  fun h => absurd (hr.symm.trans h) Bool.false_ne_true

/-- An idle block with rst_n released: no invariant speaks of its operands or of CMDR. -/
theorem inv_of_idle {t : State} (hb : t.BUSY = false) (hr : t.rstLow = false) (hc : t.CNT = 0)
    (herr : t.ErrMatchesCode) (hcode : t.CodeKnown) (hz : t.ResultReduced) : t.Inv := by
  refine ⟨⟨?_, herr, ?_, hcode⟩, ?_, heldInReset_of_released hr, hz⟩
  · simp [State.BusyStatusClear, hb]
  · simp [State.CommandValid, hb]
  · simp [State.CountMatches, hb, hc]

/-- A block with a command in flight and rst_n released: the status is clear, the command valid, and
cycles remain. -/
theorem inv_of_busy {t : State} (hb : t.BUSY = true) (hr : t.rstLow = false) (hc : 0 < t.CNT)
    (hclear : t.DONE = false ∧ t.ERR = false ∧ t.ERRCODE = 0#4) (hv : t.CommandValid)
    (hz : t.ResultReduced) : t.Inv := by
  have ⟨_, herr, hcode⟩ := hclear
  refine ⟨⟨fun _ => hclear, ?_, hv, ?_⟩, ?_, heldInReset_of_released hr, hz⟩
  · simp [State.ErrMatchesCode, herr, hcode]
  · simp [State.CodeKnown, hcode]
  · simp [State.CountMatches, hb, hc]

theorem inv_of_atReset {t : State} (h : t.AtReset) : t.Inv := by
  have hheld : t.HeldInReset := fun _ => h
  obtain ⟨-, -, hZ, -, hb, -, herr, -, hcode, -, hc⟩ := h
  refine ⟨⟨?_, ?_, ?_, ?_⟩, ?_, hheld, ?_⟩
  · simp [State.BusyStatusClear, hb]
  · simp [State.ErrMatchesCode, herr, hcode]
  · simp [State.CommandValid, hb]
  · simp [State.CodeKnown, hcode]
  · simp [State.CountMatches, hb, hc]
  · rw [State.ResultReduced, hZ]
    decide

/-- No cycles remain of an idle block. -/
theorem cnt_of_idle {s : State} (h : s.CountMatches) (hb : s.BUSY = false) : s.CNT = 0 := by
  by_contra hc
  rw [h.2 (Nat.pos_of_ne_zero hc)] at hb
  cases hb

/-- A block held in reset is idle, so rst_n is released while a command is in flight. -/
theorem released_of_busy {s : State} (hi : s.Inv) (hb : s.BUSY = true) : s.rstLow = false := by
  obtain ⟨-, -, hheld, -⟩ := hi
  cases hr : s.rstLow with
  | false => rfl
  | true =>
    obtain ⟨-, -, -, -, hidle, -⟩ := hheld hr
    rw [hb] at hidle
    cases hidle

/-! ## Each change keeps the invariant -/

/-- The invariant does not read the pending inputs. -/
theorem later_inv {s : State} (n : Nat) (hi : s.Inv) : (s.later n).Inv := hi

/-- While rst_n is released the invariant does not read OVR. -/
theorem dropped_inv {s : State} (hi : s.Inv) (hr : s.rstLow = false) : s.dropped.Inv := by
  obtain ⟨h30, hcount, -, hz⟩ := hi
  exact ⟨h30, hcount, heldInReset_of_released hr, hz⟩

/-- While rst_n is released the invariant does not read IE. -/
theorem setIE_inv {s : State} (v : Bool) (hi : s.Inv) (hr : s.rstLow = false) :
    (s.setIE v).Inv := by
  obtain ⟨h30, hcount, -, hz⟩ := hi
  exact ⟨h30, hcount, heldInReset_of_released hr, hz⟩

/-- The operands of an idle block are free (R60). -/
theorem operands_inv {s : State} (a b : Elem) (hi : s.Inv) (hb : s.BUSY = false)
    (hr : s.rstLow = false) : ({ s with A := a, B := b } : State).Inv := by
  obtain ⟨⟨-, herr, -, hcode⟩, hcount, -, hz⟩ := hi
  exact inv_of_idle hb hr (cnt_of_idle hcount hb) herr hcode hz

/-- A failed command leaves its code and the block idle (R200). -/
theorem failed_inv {s : State} (c : BitVec 5) {e : BitVec 4} (hi : s.Inv) (hb : s.BUSY = false)
    (hr : s.rstLow = false) (he : e ∈ [1#4, 2#4, 3#4]) : (s.failed c e).Inv := by
  obtain ⟨-, hcount, -, hz⟩ := hi
  have hne : e ≠ 0#4 := by rintro rfl; simp at he
  exact inv_of_idle hb hr (cnt_of_idle hcount hb) ⟨⟨fun _ => hne, fun _ => rfl⟩, fun _ => rfl⟩
    (List.mem_cons_of_mem _ he) hz

/-- The operations whose code R30 ties to B are those that read B. -/
theorem readsB_of_code {op : Op} (h : op.code ∈ [1#4, 4#4]) : readsB op = true := by
  cases op with
  | montmul | modmul => rfl
  | tomont | frommont => exact absurd h (by decide)

theorem code_mem (op : Op) : op.code ∈ [1#4, 2#4, 3#4, 4#4] := by cases op <;> decide

/-- An accepted command is valid: the checks of R140 are R30's invariant 3. -/
theorem accepted_inv {s : State} {op : Op} {k : MSel} (hi : s.Inv) (hr : s.rstLow = false)
    (ha : s.A.toNat < modulus k) (hB : readsB op = true → s.B.toNat < modulus k) :
    (s.accepted (k.bit ++ op.code)).Inv := by
  obtain ⟨-, -, -, hz⟩ := hi
  refine inv_of_busy rfl hr (Nat.succ_pos _) ⟨rfl, rfl, rfl⟩ (fun _ => ?_) hz
  change (k.bit ++ op.code : BitVec 5).extractLsb' 0 4 ∈ _ ∧
    s.A.toNat < modulus (mselOfBit ((k.bit ++ op.code : BitVec 5).getLsbD 4)) ∧
    ((k.bit ++ op.code : BitVec 5).extractLsb' 0 4 ∈ _ →
      s.B.toNat < modulus (mselOfBit ((k.bit ++ op.code : BitVec 5).getLsbD 4)))
  rw [cmdr_op, cmdr_msel]
  exact ⟨code_mem op, ha, fun h => hB (readsB_of_code h)⟩

/-- A clear of status bits keeps R30: DONE, ERR and ERRCODE go together, and are clear already while
BUSY = 1 (R157). -/
theorem statusWrite_inv {s : State} (done ovr : Bool) (hi : s.Inv) (hr : s.rstLow = false) :
    (s.statusWrite done ovr).Inv := by
  obtain ⟨⟨hclear, herr, hv, hcode⟩, hcount, -, hz⟩ := hi
  refine ⟨⟨fun hb => ?_, ?_, ?_, ?_⟩, ?_, heldInReset_of_released (by simpa using hr), ?_⟩
  · obtain ⟨hd, he, hc⟩ := hclear (by simpa using hb)
    simp [hd, he, hc]
  · cases done
    · simpa [State.ErrMatchesCode] using herr
    · simp [State.ErrMatchesCode]
  · simpa [State.CommandValid] using hv
  · cases done
    · simpa [State.CodeKnown] using hcode
    · simp [State.CodeKnown]
  · simpa [State.CountMatches] using hcount
  · simpa [State.ResultReduced] using hz

/-- The countdown goes on while cycles remain (R31). -/
theorem count_inv {s : State} {n : Nat} (hi : s.Inv) (hb : s.BUSY = true) (hn : 0 < n) :
    ({ s with CNT := n } : State).Inv := by
  have hr := released_of_busy hi hb
  obtain ⟨⟨hclear, -, hv, -⟩, -, -, hz⟩ := hi
  exact inv_of_busy hb hr hn (hclear hb) hv hz

/-- A result is below its own modulus, so Z holds it exactly (R102). -/
theorem result_toNat_lt (op : Op) (k : MSel) (a b : Nat) :
    (BitVec.ofNat 256 (result op (modulus k) a b)).toNat < modulus k := by
  rw [ofNat_result]
  exact result_lt op (modulus_pos k) a b

/-- A completed command leaves the block idle without error, with a reduced result (R150). -/
theorem completed_inv {s : State} {z : Elem} (hi : s.Inv) (hb : s.BUSY = true)
    (hz : z.toNat < Config.modP) : (s.completed z).Inv := by
  have hr := released_of_busy hi hb
  obtain ⟨⟨hclear, -⟩, -⟩ := hi
  obtain ⟨-, herr, hcode⟩ := hclear hb
  refine inv_of_idle rfl hr rfl ?_ ?_ hz
  · simp [State.ErrMatchesCode, State.completed, herr, hcode]
  · simp [State.CodeKnown, State.completed, hcode]

/-- Whatever a step changes, the invariant stands. -/
theorem Change.inv {s t : State} (h : Change s t) (hi : s.Inv) : t.Inv := by
  have hl : (s.later 1).Inv := later_inv 1 hi
  cases h with
  | reset hreset _ _ => exact inv_of_atReset hreset
  | answer _ _ => exact hl
  | writeA i d _ hb ho => exact operands_inv _ s.B hl hb ho.1
  | writeB i d _ hb ho => exact operands_inv s.A _ hl hb ho.1
  | drop _ _ _ _ ho => exact dropped_inv hl ho.1
  | fail _ _ hb he ho => exact failed_inv _ hl hb ho.1 he
  | accept _ _ _ ha hB ho => exact accepted_inv hl ho.1 ha hB
  | ie d _ ho => exact setIE_inv (d.getLsbD 0) hl ho.1
  | status d ho => exact statusWrite_inv _ _ hl ho.1
  | count _ hb hc _ => exact count_inv hl hb (by omega)
  | complete op _ hb _ _ =>
    exact completed_inv hl hb ((result_toNat_lt op _ _ _).trans_le (modulus_le_modP _))

/-- Settles O42: each change a step can make keeps the invariant. -/
theorem stepKeepsInvariant : Obligations.StepKeepsInvariant :=
  fun _ _ hi h => (step_change h).inv hi

/-- Settles O41: the block after reset has the values of R45. -/
theorem invariantAtReset : Obligations.InvariantAtReset :=
  inv_of_atReset (resetBlock_atReset State.reset)

end Sys2Proof.Machine
end

section
/-! PROOFS. Family 10_state.md: reset values (R45), irq (R28) and what changes each register
(R23, R25, R26, R29). -/

namespace Sys2Proof.Machine

/-! ## Reset and irq -/

theorem irq_of_atReset {t : State} (h : t.AtReset) : t.irq = false := by
  obtain ⟨-, -, -, hie, -⟩ := h
  simp [State.irq, hie]

theorem ovr_of_atReset {t : State} (h : t.AtReset) : t.OVR = false := by
  obtain ⟨-, -, -, -, -, -, -, hovr, -⟩ := h
  exact hovr

/-- ID reads its constant in every state (R27). -/
theorem busRead_id (s : State) : s.busRead 0x000 = 0x4D4D0100#32 := rfl

/-- Asserting rst_n resets the block, whether it was asserted before or not (R250). -/
theorem step_assert_reset {s : State} (h : s.pending.head? = some (.rst true)) :
    step s = .next { (s.later 1).resetBlock with rstLow := true } := by
  rw [step_cons h, input]
  split <;> rfl

/-- Settles O38: each of the three resets leaves the values of R45. -/
theorem resetValues : Obligations.ResetValues := by
  refine ⟨resetBlock_atReset State.reset, rfl, rfl, fun s => ?_, fun s h => ?_⟩
  · have hreset := resetBlock_atReset s
    exact ⟨s.resetBlock.respond .ok, rfl, hreset, busRead_id _, irq_of_atReset hreset⟩
  · have hreset := resetBlock_atReset s
    exact ⟨_, step_assert_reset h, hreset, rfl, irq_of_atReset hreset, rfl, busRead_id _⟩

/-- Settles O53: irq is a conjunction, and only its own line is not masked. -/
theorem interruptOutput : Obligations.InterruptOutput := by
  intro s
  refine ⟨?_, ?_, fun line hline => ?_⟩
  · simp [State.irq]
  · simp [State.irqOnLine]
  · simp [State.irqOnLine, hline]

/-! ## What changes each register -/

/-- Settles O44: of all changes, only completion and reset touch Z. -/
theorem resultChangesOnlyAtCompletionOrReset :
    Obligations.ResultChangesOnlyAtCompletionOrReset := by
  intro s t hclear h hne
  cases step_change h with
  | reset hreset hdue _ => exact .inr ⟨hdue, hreset⟩
  | complete op _ hb _ _ =>
    obtain ⟨-, herr, hcode⟩ := hclear hb
    exact .inl ⟨hb, rfl, rfl, herr, hcode, result_toNat_lt op _ _ _⟩
  | status d _ => simp at hne
  | _ => exact absurd rfl hne

/-- Settles O48: of all changes, only a CMD write of an idle block and reset touch CMDR. -/
theorem commandRegisterChanges : Obligations.CommandRegisterChanges := by
  intro s t h hne
  cases step_change h with
  | reset hreset hdue _ => exact .inl ⟨hdue, hreset⟩
  | fail d _ hb _ ho => exact .inr ⟨hb, d, ho, rfl⟩
  | accept op k hb _ _ ho => exact .inr ⟨hb, commandWord op k, ho, (commandWord_low op k).symm⟩
  | status d _ => simp at hne
  | _ => exact absurd rfl hne

/-- Settles O49: of all changes, only an IE write and reset touch IE. -/
theorem interruptEnableChanges : Obligations.InterruptEnableChanges := by
  intro s t h hne
  cases step_change h with
  | reset hreset hdue _ => exact .inl ⟨hdue, hreset⟩
  | ie d h1 ho => exact .inr ⟨d, h1, ho, rfl⟩
  | status d _ => simp at hne
  | _ => exact absurd rfl hne

/-- Settles O50: only a dropped write sets OVR, and only its W1C bit and reset clear it. -/
theorem overrunIsSticky : Obligations.OverrunIsSticky := by
  intro s t h
  cases step_change h with
  | reset hreset hdue _ =>
    exact ⟨fun _ hrise => absurd ((ovr_of_atReset hreset).symm.trans hrise) Bool.false_ne_true,
      fun _ _ => .inl ⟨hdue, hreset⟩⟩
  | drop off d hb hp ho =>
    exact ⟨fun _ _ => ⟨hb, off, d, ho, hp⟩, fun _ hfall => absurd hfall.symm Bool.false_ne_true⟩
  | status d ho =>
    refine ⟨fun hlow hrise => ?_, fun hhigh hfall => .inr ⟨d, ?_, ho⟩⟩
    · simp [hlow] at hrise
    · simpa [hhigh] using hfall
  | _ =>
    exact ⟨fun hlow hrise => absurd (hlow.symm.trans hrise) Bool.false_ne_true,
      fun hhigh hfall => absurd (hfall.symm.trans hhigh) Bool.false_ne_true⟩

end Sys2Proof.Machine
end

section
/-! PROOFS. Family 10_state.md: TOMONT and FROMMONT do not read B (R22, R106, R107). -/

namespace Sys2Proof.Machine

theorem result_ignores_B {op : Op} (hop : readsB op = false) (m a b b' : Nat) :
    result op m a b = result op m a b' := by
  cases op with
  | montmul | modmul => cases hop
  | tomont | frommont => rfl

/-- The CMD write of a command that does not read B: its checks do not look at B (R140). -/
theorem issue_ignores_B {op : Op} (hop : readsB op = false) (k : MSel) {s : State}
    (hb : s.BUSY = false) (b : Elem) :
    (({ s with B := b } : State).issue op k).respond .ok =
      { (s.issue op k).respond .ok with B := b } := by
  have hnotB : readsB op ≠ true := by simp [hop]
  by_cases ha : modulus k ≤ s.A.toNat
  · rw [issue_rangeA hb ha, issue_rangeA (s := { s with B := b }) hb ha]
    rfl
  · have ha' := Nat.not_le.1 ha
    rw [issue_accepts hb ha' (absurd · hnotB),
      issue_accepts (s := { s with B := b }) hb ha' (absurd · hnotB)]
    rfl

/-- Acceptance or failure, then the Engine's turn: B stays where it is and nothing else sees it. -/
theorem issue_engine_ignores_B {op : Op} (hop : readsB op = false) (k : MSel) {s : State}
    (hb : s.BUSY = false) (b : Elem) :
    ∃ u, engineStep ((s.issue op k).respond .ok) = .next u ∧
      engineStep { (s.issue op k).respond .ok with B := b } = .next { u with B := b } := by
  have hnotB : readsB op ≠ true := by simp [hop]
  by_cases ha : modulus k ≤ s.A.toNat
  · rw [issue_rangeA hb ha]
    exact ⟨_, engineStep_idle hb, engineStep_idle hb⟩
  · rw [issue_accepts hb (Nat.not_le.1 ha) (absurd · hnotB)]
    refine ⟨_, engineStep_accepted s op k, ?_⟩
    rw [result_ignores_B hop _ _ s.B.toNat b.toNat]
    exact engineStep_accepted { s with B := b } op k

/-- The four conversions are CMD writes of operations that do not read B. -/
theorem conversion_is_issue {i : Instr}
    (h : i ∈ [Instr.tomontP, .tomontN, .frommontP, .frommontN]) :
    ∃ op k, readsB op = false ∧ ∀ s, exec i s = .next ((s.issue op k).respond .ok) := by
  simp only [List.mem_cons, List.not_mem_nil, or_false] at h
  rcases h with rfl | rfl | rfl | rfl
  · exact ⟨.tomont, .p, rfl, fun _ => rfl⟩
  · exact ⟨.tomont, .n, rfl, fun _ => rfl⟩
  · exact ⟨.frommont, .p, rfl, fun _ => rfl⟩
  · exact ⟨.frommont, .n, rfl, fun _ => rfl⟩

/-- Settles O37: neither the checks nor the result of a conversion read B. -/
theorem conversionsIgnoreB : Obligations.ConversionsIgnoreB := by
  intro s b hb i hi
  obtain ⟨op, k, hop, hexec⟩ := conversion_is_issue hi
  refine ⟨_, hexec s, ?_, issue_engine_ignores_B hop k hb b⟩
  rw [hexec, issue_ignores_B hop k hb]

end Sys2Proof.Machine
end

section
/-! PROOFS. Family 10_state.md: the timed refinement (R31, R261). -/

namespace Sys2Proof.Machine

/-! ## One clock edge -/

theorem step_clock {s : State} (hr : s.rstLow = false) (hx : s.pending.head? = some .clock) :
    step s = clockEdge (s.later 1) := by
  rw [step_cons hx]
  simp [input, hr]

theorem step_clock_idle {s : State} (hr : s.rstLow = false) (hx : s.pending.head? = some .clock)
    (hb : s.BUSY = false) : step s = .next (s.later 1) := by
  rw [step_clock hr hx]
  simp [clockEdge, hb]

theorem step_clock_count {s : State} (hr : s.rstLow = false) (hx : s.pending.head? = some .clock)
    (hb : s.BUSY = true) (hc : 1 < s.CNT) : step s = .next { s.later 1 with CNT := s.CNT - 1 } := by
  rw [step_clock hr hx]
  simp [clockEdge, hb, Nat.not_le.2 hc]

/-- The Engine does not look at CNT: completion sets it. -/
theorem engineStep_ignores_CNT {s : State} (hb : s.BUSY = true) (n : Nat) :
    engineStep { s with CNT := n } = engineStep s := by
  rw [engineStep_busy hb, engineStep_busy (s := { s with CNT := n }) hb]
  rfl

/-- The edge that brings CNT to 0 is the Engine's completion (R31). -/
theorem step_clock_last {s : State} (hr : s.rstLow = false) (hx : s.pending.head? = some .clock)
    (hb : s.BUSY = true) (hc : s.CNT ≤ 1) : step s = engineStep (s.later 1) := by
  have hb' : (s.later 1).BUSY = true := hb
  rw [step_clock hr hx, clockEdge, if_pos hb', if_pos (by exact hc), engineStep_busy hb']
  rfl

/-- Settles O55: an edge counts while cycles remain, and the last one is the Engine's completion. -/
theorem clockRefinesEngine : Obligations.ClockRefinesEngine := by
  intro s t _ hr hx h
  cases hb : s.BUSY with
  | false =>
    rw [step_clock_idle hr hx hb] at h
    obtain rfl := Host.Outcome.next.inj h
    exact .inl rfl
  | true =>
    by_cases hc : s.CNT ≤ 1
    · rw [step_clock_last hr hx hb hc] at h
      exact .inr ⟨rfl, h⟩
    · rw [step_clock_count hr hx hb (Nat.not_le.1 hc)] at h
      obtain rfl := Host.Outcome.next.inj h
      exact .inl rfl

/-! ## A run of clock edges -/

/-- A command in flight after `j` edges that have not completed it. -/
def State.afterEdges (s : State) (j : Nat) : State := { s.later j with CNT := s.CNT - j }

theorem afterEdges_head {s : State} {j : Nat} {x : Input} (h : s.pending[j]? = some x) :
    (s.afterEdges j).pending.head? = some x := by
  rw [State.afterEdges, later_pending, List.head?_drop, h]

theorem afterEdges_later (s : State) (j : Nat) :
    (s.afterEdges j).later 1 = { s.later (j + 1) with CNT := s.CNT - j } := by
  simp [State.afterEdges, State.later]

/-- Fewer edges than cycles remain: they change CNT and take their inputs away, nothing else. -/
theorem run_clock_count {j : Nat} {s : State} (hr : s.rstLow = false) (hb : s.BUSY = true)
    (hj : j < s.CNT) (hp : ∀ i < j, s.pending[i]? = some .clock) :
    Sys2Proof.core.run j s = .next (s.afterEdges j) := by
  induction j with
  | zero => rfl
  | succ j ih =>
    have hrun := ih (by omega) (fun i hi => hp i (by omega))
    have hcnt : 1 < (s.afterEdges j).CNT := by
      change 1 < s.CNT - j
      omega
    have hhead := afterEdges_head (hp j (Nat.lt_succ_self j))
    have hstep : step (s.afterEdges j) = .next (s.afterEdges (j + 1)) := by
      rw [step_clock_count (s := s.afterEdges j) hr hhead hb hcnt, afterEdges_later]
      rfl
    rw [run_add 1 hrun, run_succ hstep]
    rfl

/-- The edge after which no cycle remains ends the run in the Engine's own turn. -/
theorem run_clock_last {n : Nat} {s u : State} (hr : s.rstLow = false) (hb : s.BUSY = true)
    (hc : s.CNT = n + 1) (hp : ∀ i < n + 1, s.pending[i]? = some .clock)
    (hu : engineStep (s.later (n + 1)) = .next u) : Sys2Proof.core.run (n + 1) s = .next u := by
  have hrun := run_clock_count hr hb (by omega) (fun i hi => hp i (Nat.lt_succ_of_lt hi))
  have hcnt : (s.afterEdges n).CNT ≤ 1 := by
    change s.CNT - n ≤ 1
    omega
  have hhead := afterEdges_head (hp n (Nat.lt_succ_self n))
  have hstep : step (s.afterEdges n) = .next u := by
    rw [step_clock_last (s := s.afterEdges n) hr hhead hb hcnt, afterEdges_later,
      engineStep_ignores_CNT (s := s.later (n + 1)) hb, hu]
  rw [run_add 1 hrun, run_succ hstep]
  rfl

/-- Settles O54: LAT(op) - 1 edges count down, and the next one is the Engine's turn. -/
theorem timedCompletion : Obligations.TimedCompletion := by
  intro s op k rest hi hb hcmd hcnt hp
  have hr := released_of_busy hi hb
  have hclock : ∀ i < Config.lat op.code, s.pending[i]? = some .clock := by
    intro i hlt
    rw [hp, List.getElem?_append_left (by simpa using hlt)]
    simp [hlt]
  have hop : opOfCode (s.CMDR.extractLsb' 0 4) = some op := by rw [hcmd, cmdr_op, opOfCode_code]
  have hengine := (engineStep_busy (s := s.later (Config.lat op.code)) hb).trans (complete_eq hop)
  refine ⟨Nat.succ_pos _, fun j hj => ?_, _, ?_, ?_, hengine, rfl, rfl⟩
  · exact run_clock_count hr hb (hcnt ▸ hj) (fun i hlt => hclock i (hlt.trans hj))
  · exact run_clock_last hr hb hcnt hclock hengine
  · simp [State.completed, hp]

end Sys2Proof.Machine
end

section
/-! PROOFS. Family 20_memory.md: what an access decodes to, and the accesses the port performs,
refuses or ignores (R50, R53, R59, R61). -/

namespace Sys2Proof.Machine

/-! ## What decodes (R84, R86) -/

theorem decodeCmd_wf (d : Word) :
    (decodeCmd d).wf = true ∧ encodeOffset (decodeCmd d) = 0x00C := by
  by_cases hl : d ∈ legalCommandWords
  · obtain ⟨op, k, rfl⟩ := legal_is_command hl
    cases op <;> cases k <;> exact ⟨rfl, rfl⟩
  · rw [decodeCmd_illegal hl]
    exact ⟨by simpa [Instr.wf] using hl, rfl⟩

theorem decodeCtrl_wf (d : Word) :
    (decodeCtrl d).wf = true ∧ encodeOffset (decodeCtrl d) = 0x004 := by
  unfold decodeCtrl
  cases d.getLsbD 1 <;> exact ⟨rfl, rfl⟩

theorem decodeStatus_wf {d : Word} {i : Instr} (h : decodeStatus d = .ok i) :
    i.wf = true ∧ encodeOffset i = 0x008 := by
  unfold decodeStatus at h
  split at h
  · obtain rfl := Except.ok.inj h
    exact ⟨rfl, rfl⟩
  · split at h
    · obtain rfl := Except.ok.inj h
      exact ⟨rfl, rfl⟩
    · cases h

/-- A write that decodes goes to CTRL, STATUS or CMD, the offset its instruction is encoded to. -/
theorem decode_w_wf {off : Nat} {d : Word} {i : Instr} (h4 : off % 4 = 0) (hw : off < 0x100)
    (h : decode (Access.w off d) = .ok i) :
    i.wf = true ∧ encodeOffset i = off ∧ off ∈ [0x004, 0x008, 0x00C] := by
  have hfits := placeOf_fits h4 hw
  rw [decode_w d h4 hw] at h
  cases hp : placeOf off <;> rw [hp] at h hfits
  case cmd =>
    obtain rfl := Except.ok.inj h
    obtain rfl : off = 0x00C := hfits
    obtain ⟨hwf, hoff⟩ := decodeCmd_wf d
    exact ⟨hwf, hoff, by decide⟩
  case ctrl =>
    obtain rfl := Except.ok.inj h
    obtain rfl : off = 0x004 := hfits
    obtain ⟨hwf, hoff⟩ := decodeCtrl_wf d
    exact ⟨hwf, hoff, by decide⟩
  case status =>
    obtain rfl : off = 0x008 := hfits
    obtain ⟨hwf, hoff⟩ := decodeStatus_wf h
    exact ⟨hwf, hoff, by decide⟩
  case id | opA | opB | resZ | reserved => cases h

/-- Settles O3: a refused access and a read do not decode, and a performed write decodes only at the
three offsets. -/
theorem decodedIsWellFormed : Obligations.DecodedIsWellFormed := by
  intro x i h
  cases hx : x.refused with
  | true => rw [decode_refused hx] at h; cases h
  | false =>
    have hperformed : x.wf = true := by simp [Access.wf, hx]
    rcases performed_form hx with ⟨off, rfl, h4, hw⟩ | ⟨off, d, rfl, h4, hw⟩
    · rw [decode_r h4 hw] at h
      cases h
    · obtain ⟨hwf, hoff, hmem⟩ := decode_w_wf h4 hw h
      exact ⟨hwf, hperformed, hoff, hmem⟩

/-- Settles O6: the step is the access, and an access that decodes runs its instruction. -/
theorem stepRunsDecodedInstruction : Obligations.StepRunsDecodedInstruction :=
  fun s _ _ ho hd => (step_offers ho).trans (access_ok hd (s.later 1))

/-! ## Refused and ignored accesses (R53, R61) -/

theorem read_refused_iff (off width : Nat) :
    (Access.read off width).refused = true ↔ off % 4 ≠ 0 ∨ width ≠ 32 ∨ 0x100 ≤ off := by
  simp only [Access.refused, Bool.or_eq_true, bne_iff_ne, decide_eq_true_eq, or_assoc]
  rfl

theorem write_refused_iff (off width : Nat) (lanes : BitVec 4) (d : Word) :
    (Access.write off width lanes d).refused = true ↔
      off % 4 ≠ 0 ∨ width ≠ 32 ∨ lanes ≠ 0xF#4 ∨ 0x100 ≤ off := by
  simp only [Access.refused, Bool.or_eq_true, bne_iff_ne, decide_eq_true_eq, or_assoc]
  rfl

theorem step_refused {s : State} {x : Access} (ho : s.Offers x) (hx : x.refused = true) :
    step s = .next ((s.later 1).respond .busError) :=
  (step_offers ho).trans (access_refused hx (s.later 1))

/-- Settles O9: the causes of R53 are what the port's check tests. -/
theorem refusedAccessChangesNothing : Obligations.RefusedAccessChangesNothing := by
  refine ⟨fun s off width hbad ho => ?_, fun s off width lanes d hbad ho => ?_, rfl⟩
  · exact step_refused ho ((read_refused_iff off width).2 hbad)
  · exact step_refused ho ((write_refused_iff off width lanes d).2 hbad)

theorem step_read {s : State} {off : Nat} (h4 : off % 4 = 0) (hw : off < 0x100)
    (ho : s.Offers (Access.r off)) :
    step s = .next ((s.later 1).respond (.data (s.busRead off))) :=
  (step_offers ho).trans (access_r h4 hw (s.later 1))

theorem placeOf_reserved {off : Nat}
    (h : (0x010 ≤ off ∧ off ≤ 0x01C) ∨ 0x080 ≤ off) : placeOf off = .reserved := by
  unfold placeOf
  repeat rw [if_neg (by omega)]
  rcases h with h | h
  · rw [if_pos (by omega)]
  · repeat rw [if_neg (by omega)]

theorem busRead_reserved (s : State) {off : Nat}
    (h : (0x010 ≤ off ∧ off ≤ 0x01C) ∨ 0x080 ≤ off) : s.busRead off = 0#32 := by
  rw [State.busRead, placeOf_reserved h]

/-- Settles O12: an ignored write changes the answer alone, and a reserved offset reads 0. -/
theorem ignoredWritesAndReservedReads : Obligations.IgnoredWritesAndReservedReads := by
  refine fun s off h4 => ⟨fun hoff d ho => ?_, fun hoff ho => ?_⟩
  · exact (step_offers ho).trans (access_ignored h4 (by omega) (by omega) d (s.later 1))
  · rw [step_read h4 (by omega) ho, busRead_reserved s (by omega)]
    rfl

/-- Settles O14: BASE is a multiple of 0x100, and the port subtracts it. -/
theorem addressReachesOffset : Obligations.AddressReachesOffset := by
  have haligned : Config.base % 0x100 = 0 := by
    rw [Config.base, Config.window, Nat.mul_mod_left]
  refine ⟨fun off => ?_, haligned, fun off => ?_⟩
  · simp [offsetOfAddress]
  · generalize Config.base = base at haligned
    omega

end Sys2Proof.Machine
end

section
/-! PROOFS. Family 20_memory.md: reads (R58) and operand word writes (R60). -/

namespace Sys2Proof.Machine

/-! ## What each offset reads (R58) -/

theorem placeOf_resZ {i : Nat} (h : i < 8) : placeOf (0x060 + 4 * i) = .resZ i := by
  have hword : (0x060 + 4 * i - 0x060) / 4 = i := by omega
  unfold placeOf
  repeat rw [if_neg (by omega)]
  rw [if_pos (by omega), hword]

theorem busRead_opA (s : State) {i : Nat} (h : i < 8) :
    s.busRead (0x020 + 4 * i) = elemWord s.A i := by
  rw [State.busRead, placeOf_opA h]

theorem busRead_opB (s : State) {i : Nat} (h : i < 8) :
    s.busRead (0x040 + 4 * i) = elemWord s.B i := by
  rw [State.busRead, placeOf_opB h]

theorem busRead_resZ (s : State) {i : Nat} (h : i < 8) :
    s.busRead (0x060 + 4 * i) = elemWord s.Z i := by
  rw [State.busRead, placeOf_resZ h]

/-- The table of R58, in the words in which the statement gives it. -/
theorem busRead_eq (s : State) {off : Nat} (h4 : off % 4 = 0) (hw : off < 0x100) :
    s.busRead off =
      if off = 0x000 then 0x4D4D0100#32
      else if off = 0x004 then (0#31 ++ BitVec.ofBool s.IE : BitVec 32)
      else if off = 0x008 then
        (0#24 ++ s.ERRCODE ++ BitVec.ofBool s.OVR ++ BitVec.ofBool s.ERR ++ BitVec.ofBool s.DONE
          ++ BitVec.ofBool s.BUSY : BitVec 32)
      else if off = 0x00C then (0#27 ++ s.CMDR : BitVec 32)
      else if 0x020 ≤ off ∧ off ≤ 0x03C then s.A.extractLsb' (32 * ((off - 0x020) / 4)) 32
      else if 0x040 ≤ off ∧ off ≤ 0x05C then s.B.extractLsb' (32 * ((off - 0x040) / 4)) 32
      else if 0x060 ≤ off ∧ off ≤ 0x07C then s.Z.extractLsb' (32 * ((off - 0x060) / 4)) 32
      else 0#32 := by
  have hfits := placeOf_fits h4 hw
  cases hp : placeOf off <;> rw [hp] at hfits <;> dsimp only [PlaceFits] at hfits
  case id => subst hfits; rfl
  case ctrl => subst hfits; exact BitVec.setWidth_eq_append (by decide)
  case status => subst hfits; rfl
  case cmd => subst hfits; exact BitVec.setWidth_eq_append (by decide)
  case opA i =>
    obtain ⟨hi, rfl⟩ := hfits
    have hword : (0x020 + 4 * i - 0x020) / 4 = i := by omega
    repeat rw [if_neg (by omega)]
    rw [if_pos (by omega), hword, busRead_opA s hi, elemWord]
  case opB i =>
    obtain ⟨hi, rfl⟩ := hfits
    have hword : (0x040 + 4 * i - 0x040) / 4 = i := by omega
    repeat rw [if_neg (by omega)]
    rw [if_pos (by omega), hword, busRead_opB s hi, elemWord]
  case resZ i =>
    obtain ⟨hi, rfl⟩ := hfits
    have hword : (0x060 + 4 * i - 0x060) / 4 = i := by omega
    repeat rw [if_neg (by omega)]
    rw [if_pos (by omega), hword, busRead_resZ s hi, elemWord]
  case reserved =>
    rw [busRead_reserved s (by omega)]
    repeat rw [if_neg (by omega)]

/-- Settles O8: a performed read answers the word at its offset and changes nothing else. -/
theorem readReturnsRegister : Obligations.ReadReturnsRegister := by
  intro s off h4 hw ho
  rw [step_read h4 hw ho, busRead_eq s h4 hw]
  rfl

/-! ## Operand word writes (R60) -/

theorem step_opA_busy {s : State} {i : Nat} {d : Word} (hi : i < 8) (hb : s.BUSY = true)
    (ho : s.Offers (Access.w (0x020 + 4 * i) d)) : step s = .next (s.later 1).dropped := by
  rw [step_offers ho, access_opA hi, State.writeA, if_pos (by exact hb)]
  rfl

theorem step_opB_busy {s : State} {i : Nat} {d : Word} (hi : i < 8) (hb : s.BUSY = true)
    (ho : s.Offers (Access.w (0x040 + 4 * i) d)) : step s = .next (s.later 1).dropped := by
  rw [step_offers ho, access_opB hi, State.writeB, if_pos (by exact hb)]
  rfl

theorem step_opA_idle {s : State} {i : Nat} {d : Word} (hi : i < 8) (hb : s.BUSY = false)
    (ho : s.Offers (Access.w (0x020 + 4 * i) d)) :
    step s = .next { s.later 1 with A := setElemWord s.A i d, resp := some .ok } := by
  rw [step_offers ho, access_opA hi, State.writeA, if_neg (by simp [hb])]
  rfl

theorem step_opB_idle {s : State} {i : Nat} {d : Word} (hi : i < 8) (hb : s.BUSY = false)
    (ho : s.Offers (Access.w (0x040 + 4 * i) d)) :
    step s = .next { s.later 1 with B := setElemWord s.B i d, resp := some .ok } := by
  rw [step_offers ho, access_opB hi, State.writeB, if_neg (by simp [hb])]
  rfl

/-- Settles O10: while idle the word is replaced, while busy the write is dropped. -/
theorem operandWordWrite : Obligations.OperandWordWrite := by
  refine fun s i d hi => ⟨fun ho => ?_, fun ho => ?_⟩
  · split
    next hb => exact step_opA_busy hi hb ho
    next hb =>
      exact ⟨_, step_opA_idle hi (Bool.eq_false_of_not_eq_true hb) ho,
        elemWord_setElemWord_same s.A hi d,
        fun j hj hne => elemWord_setElemWord_ne s.A hj hne d⟩
  · split
    next hb => exact step_opB_busy hi hb ho
    next hb =>
      exact ⟨_, step_opB_idle hi (Bool.eq_false_of_not_eq_true hb) ho,
        elemWord_setElemWord_same s.B hi d,
        fun j hj hne => elemWord_setElemWord_ne s.B hj hne d⟩

/-- What an offset reads depends on the registers alone, word by word: of A and B only the word that
stands at the offset counts. -/
theorem busRead_congr {s t : State} {k : Nat} (h4 : k % 4 = 0) (hw : k < 0x100)
    (hA : ∀ j < 8, k = 0x020 + 4 * j → elemWord t.A j = elemWord s.A j)
    (hB : ∀ j < 8, k = 0x040 + 4 * j → elemWord t.B j = elemWord s.B j)
    (hZ : t.Z = s.Z) (hIE : t.IE = s.IE) (hstatus : t.statusWord = s.statusWord)
    (hcmdr : t.CMDR = s.CMDR) : t.busRead k = s.busRead k := by
  have hfits := placeOf_fits h4 hw
  unfold State.busRead
  cases hp : placeOf k <;> rw [hp] at hfits
  case ctrl => simp only [hIE]
  case status => exact hstatus
  case cmd => simp only [hcmdr]
  case opA j => exact hA j hfits.1 hfits.2
  case opB j => exact hB j hfits.1 hfits.2
  case resZ j => simp only [hZ]

/-- Settles O11: the written word reads back, and every other offset stands for something else. -/
theorem operandWriteReadsBack : Obligations.OperandWriteReadsBack := by
  intro s off d h4 hlow hhigh hb ho
  by_cases hA : off < 0x040
  · obtain ⟨i, hi, rfl⟩ : ∃ i < 8, off = 0x020 + 4 * i := ⟨(off - 0x020) / 4, by omega, by omega⟩
    refine ⟨_, step_opA_idle hi hb ho, ?_, fun k hk4 hkw hne => ?_⟩
    · rw [busRead_opA _ hi]
      exact elemWord_setElemWord_same s.A hi d
    · refine busRead_congr hk4 hkw (fun j hj hkj => ?_) (fun _ _ _ => rfl) rfl rfl rfl rfl
      exact elemWord_setElemWord_ne s.A hj (by omega) d
  · obtain ⟨i, hi, rfl⟩ : ∃ i < 8, off = 0x040 + 4 * i := ⟨(off - 0x040) / 4, by omega, by omega⟩
    refine ⟨_, step_opB_idle hi hb ho, ?_, fun k hk4 hkw hne => ?_⟩
    · rw [busRead_opB _ hi]
      exact elemWord_setElemWord_same s.B hi d
    · refine busRead_congr hk4 hkw (fun _ _ _ => rfl) (fun j hj hkj => ?_) rfl rfl rfl rfl
      exact elemWord_setElemWord_ne s.B hj (by omega) d

end Sys2Proof.Machine
end

section
/-! PROOFS. Family 20_memory.md: external byte strings (R56). -/

namespace Sys2Proof.Machine

theorem valueOfBytes_concat (e : List (BitVec 8)) (x : BitVec 8) :
    valueOfBytes (e ++ [x]) = valueOfBytes e * 256 + x.toNat := by
  simp [valueOfBytes]

theorem valueOfBytes_lt (e : List (BitVec 8)) : valueOfBytes e < 256 ^ e.length := by
  induction e using List.reverseRecOn with
  | nil => decide
  | append_singleton e x ih =>
    rw [valueOfBytes_concat, List.length_append, List.length_singleton, pow_succ]
    have hx := x.isLt
    omega

/-- A 32-byte string fits a register. -/
theorem valueOfBytes_fits {e : List (BitVec 8)} (he : e.length = 32) :
    valueOfBytes e < 2 ^ 256 := by
  have h := valueOfBytes_lt e
  rw [he] at h
  exact h

/-- Byte k of the value, counted from the least significant, is byte k of the string, counted from
its end. -/
theorem valueOfBytes_byte (e : List (BitVec 8)) {k : Nat} (hk : k < e.length) :
    valueOfBytes e / 256 ^ k % 256 = (e.getD (e.length - 1 - k) 0#8).toNat := by
  induction e using List.reverseRecOn generalizing k with
  | nil => cases hk
  | append_singleton e x ih =>
    have hx : x.toNat < 256 := x.isLt
    rw [valueOfBytes_concat]
    rw [List.length_append, List.length_singleton] at hk ⊢
    cases k with
    | zero =>
      rw [List.getD_append_right _ _ _ _ (by omega), pow_zero, Nat.div_one,
        Nat.mul_add_mod', Nat.mod_eq_of_lt hx]
      simp
    | succ k =>
      have hindex : e.length + 1 - 1 - (k + 1) = e.length - 1 - k := by omega
      have hdrop : (valueOfBytes e * 256 + x.toNat) / 256 = valueOfBytes e := by omega
      rw [List.getD_append _ _ _ _ (by omega), hindex, pow_succ', ← Nat.div_div_eq_div_mul, hdrop]
      exact ih (by omega)

theorem toNat_append_eq_add {n m : Nat} (x : BitVec n) (y : BitVec m) :
    (x ++ y).toNat = x.toNat * 2 ^ m + y.toNat := by
  rw [BitVec.toNat_append, ← Nat.shiftLeft_add_eq_or_of_lt y.isLt, Nat.shiftLeft_eq]

/-- The low 32 bits of a number are its four low bytes. -/
theorem low_word_eq_bytes (v : Nat) :
    v % 2 ^ 32 =
      ((v / 256 ^ 3 % 256 * 2 ^ 8 + v / 256 ^ 2 % 256) * 2 ^ 8 + v / 256 ^ 1 % 256) * 2 ^ 8
        + v / 256 ^ 0 % 256 := by
  omega

/-- Word i of the value of a 32-byte string is its four bytes that end 4i bytes from the end. -/
theorem valueOfBytes_word {e : List (BitVec 8)} {i : Nat} (he : e.length = 32) (hi : i < 8) :
    (BitVec.ofNat 256 (valueOfBytes e)).extractLsb' (32 * i) 32 =
      (e.getD (28 - 4 * i) 0#8 ++ e.getD (29 - 4 * i) 0#8 ++ e.getD (30 - 4 * i) 0#8
        ++ e.getD (31 - 4 * i) 0#8 : BitVec 32) := by
  have hshift : 2 ^ (32 * i) = 256 ^ (4 * i) := by
    rw [show 256 = 2 ^ 8 from rfl, ← pow_mul, ← Nat.mul_assoc]
  have hbyte : ∀ j < 4, valueOfBytes e / 256 ^ (4 * i) / 256 ^ j % 256 =
      (e.getD (31 - j - 4 * i) 0#8).toNat := by
    intro j hj
    have hindex : e.length - 1 - (4 * i + j) = 31 - j - 4 * i := by omega
    rw [Nat.div_div_eq_div_mul, ← pow_add, valueOfBytes_byte e (by omega), hindex]
  apply BitVec.eq_of_toNat_eq
  rw [BitVec.extractLsb'_toNat, BitVec.toNat_ofNat, Nat.mod_eq_of_lt (valueOfBytes_fits he),
    Nat.shiftRight_eq_div_pow, hshift, low_word_eq_bytes]
  rw [hbyte 0 (by decide), hbyte 1 (by decide), hbyte 2 (by decide), hbyte 3 (by decide)]
  simp only [toNat_append_eq_add]

/-- Settles O13: the value of a big-endian string word by word, and the worked conversion of R56. -/
theorem bytesToWords : Obligations.BytesToWords :=
  ⟨fun _ _ he hi => ⟨valueOfBytes_fits he, valueOfBytes_word he hi⟩, by decide⟩

end Sys2Proof.Machine
end

section
/-! PROOFS. Family 20_memory.md: what the host's accesses leave alone, a command in flight and a
result (R60, R62, R66). -/

namespace Sys2Proof.Machine

/-- Settles O45: of all changes, only an operand word write of an idle block and reset touch A
or B. -/
theorem operandsFrozenWhileBusy : Obligations.OperandsFrozenWhileBusy := by
  intro s t h hne
  cases step_change h with
  | reset hreset hdue _ => exact .inl ⟨hdue, hreset⟩
  | writeA i d hi hb ho =>
    exact .inr ⟨hb, _, d, ho, by omega, fun _ => by omega, fun hB => absurd rfl hB⟩
  | writeB i d hi hb ho =>
    exact .inr ⟨hb, _, d, ho, by omega, fun hA => absurd rfl hA, fun _ => by omega⟩
  | status d _ => simp at hne
  | _ => exact hne.elim (absurd rfl) (absurd rfl)

/-! ## Inputs that ask for no reset -/

/-- The input neither asserts rst_n nor is an SRST write. -/
def Input.AsksNoReset (x : Input) : Prop :=
  x ≠ .rst true ∧ ∀ d, x = .bus (Access.w 0x004 d) → d.getLsbD 1 = false

theorem not_resetDue {s : State} (hr : s.rstLow = false)
    (hx : ∀ x, s.pending.head? = some x → x.AsksNoReset) : ¬ s.ResetDue := by
  rintro (hlow | hassert | ⟨d, ⟨-, hhead⟩, hsrst⟩)
  · rw [hr] at hlow
    cases hlow
  · obtain ⟨hne, -⟩ := hx _ hassert
    exact hne rfl
  · obtain ⟨-, hctrl⟩ := hx _ hhead
    rw [hctrl d rfl] at hsrst
    cases hsrst

/-! ## The port always answers -/

theorem exec_next (i : Instr) (s : State) : ∃ t, exec i s = .next t := by
  cases i <;> exact ⟨_, rfl⟩

theorem access_next (x : Access) (s : State) : ∃ t, access x s = .next t := by
  cases hx : x.refused with
  | true => exact ⟨_, access_refused hx s⟩
  | false =>
    cases hd : decode x with
    | ok i =>
      rw [access_ok hd]
      exact exec_next i s
    | error e =>
      unfold access
      rw [hd]
      cases e <;> cases x <;> exact ⟨_, rfl⟩

theorem step_offers_next {s : State} {x : Access} (ho : s.Offers x) : ∃ t, step s = .next t := by
  rw [step_offers ho]
  exact access_next x (s.later 1)

/-- A step of an idle block never stops, whatever comes next. -/
theorem step_idle_next {s : State} (hr : s.rstLow = false) (hb : s.BUSY = false) :
    ∃ t, step s = .next t := by
  cases hp : s.pending with
  | nil =>
    refine ⟨s, ?_⟩
    rw [step_nil hp, quietStep, if_neg (by simp [hr]), engineStep_idle hb]
  | cons x rest =>
    have hx : s.pending.head? = some x := by rw [hp]; rfl
    cases x with
    | bus a => exact step_offers_next ⟨hr, hx⟩
    | clock => exact ⟨_, step_clock_idle hr hx hb⟩
    | engine =>
      refine ⟨s.later 1, ?_⟩
      rw [step_cons hx, input, if_neg (by simp [hr])]
      exact engineStep_idle hb
    | rst low =>
      rw [step_cons hx, input, if_neg (by simp [hr])]
      exact ⟨_, rfl⟩

/-! ## A command in flight (R62) -/

/-- The same command is in flight in `t` as in `s`, with the operands it was accepted with. -/
def State.SameCommand (s t : State) : Prop :=
  t.BUSY = s.BUSY ∧ t.A = s.A ∧ t.B = s.B ∧ t.CMDR = s.CMDR ∧ t.Z = s.Z

theorem State.SameCommand.trans {s t u : State} (h₁ : s.SameCommand t) (h₂ : t.SameCommand u) :
    s.SameCommand u := by
  obtain ⟨hb₁, hA₁, hB₁, hc₁, hZ₁⟩ := h₁
  obtain ⟨hb₂, hA₂, hB₂, hc₂, hZ₂⟩ := h₂
  exact ⟨hb₂.trans hb₁, hA₂.trans hA₁, hB₂.trans hB₁, hc₂.trans hc₁, hZ₂.trans hZ₁⟩

/-- An access that is no SRST write leaves a command in flight: every change that would touch it
needs an idle block, a reset, or a turn of the Engine. -/
theorem Change.sameCommand {s t : State} {a : Access} (h : Change s t) (hb : s.BUSY = true)
    (ho : s.Offers a) (ha : Input.AsksNoReset (.bus a)) : s.SameCommand t := by
  obtain ⟨hr, hhead⟩ := ho
  cases h with
  | reset _ hdue _ =>
    refine absurd hdue (not_resetDue hr fun x hx => ?_)
    obtain rfl := Option.some.inj (hhead.symm.trans hx)
    exact ha
  | answer _ _ | drop _ _ _ _ _ | ie _ _ _ | count _ _ _ _ => exact ⟨rfl, rfl, rfl, rfl, rfl⟩
  | status d _ => simp [State.SameCommand]
  | writeA _ _ _ hidle _ | writeB _ _ _ hidle _ | fail _ _ hidle _ _ | accept _ _ hidle _ _ _ =>
    rw [hb] at hidle
    cases hidle
  | complete _ _ _ hn _ => exact absurd hhead (hn a)

/-- The result of a command depends on CMDR, A and B alone. -/
theorem engineStep_sameCommand {s t : State} (hi : s.Inv) (hb : s.BUSY = true)
    (h : s.SameCommand t) :
    ∃ u v, engineStep s = .next u ∧ engineStep t = .next v ∧ v.Z = u.Z := by
  obtain ⟨⟨-, -, hvalid, -⟩, -⟩ := hi
  obtain ⟨hmem, -⟩ := hvalid hb
  obtain ⟨op, hop⟩ := opOfCode_of_mem hmem
  obtain ⟨hbusy, hA, hB, hcmdr, -⟩ := h
  have hs := (engineStep_busy hb).trans (complete_eq hop)
  have ht := (engineStep_busy (hbusy.trans hb)).trans (complete_eq (by rw [hcmdr]; exact hop))
  refine ⟨_, _, hs, ht, ?_⟩
  simp only [State.completed, hA, hB, hcmdr]

/-- Any number of accesses but SRST writes leave a command in flight. -/
theorem run_sameCommand {n : Nat} {s : State} (hi : s.Inv) (hb : s.BUSY = true)
    (hn : n ≤ s.pending.length)
    (hx : ∀ x ∈ s.pending.take n, ∃ a, x = .bus a ∧ x.AsksNoReset) :
    ∃ t, Sys2Proof.core.run n s = .next t ∧ s.SameCommand t ∧ t.pending = s.pending.drop n := by
  induction n generalizing s with
  | zero => exact ⟨s, rfl, ⟨rfl, rfl, rfl, rfl, rfl⟩, rfl⟩
  | succ n ih =>
    cases hp : s.pending with
    | nil => simp [hp] at hn
    | cons x rest =>
      rw [hp] at hn hx
      obtain ⟨a, rfl, ha⟩ := hx x (by simp)
      have ho : s.Offers a := ⟨released_of_busy hi hb, by simp [hp]⟩
      obtain ⟨t, hstep⟩ := step_offers_next ho
      have hsame := (step_change hstep).sameCommand hb ho ha
      have hrest : t.pending = rest := by rw [step_pending hstep, hp]; rfl
      have ⟨hbusy, _⟩ := hsame
      obtain ⟨u, hrun, hsame', hdrop⟩ := ih (stepKeepsInvariant s t hi hstep) (hbusy.trans hb)
        (by rw [hrest]; exact Nat.le_of_succ_le_succ hn)
        (fun y hy => hx y (by rw [hrest] at hy; simp [hy]))
      exact ⟨u, (run_succ hstep n).trans hrun, hsame.trans hsame', by rw [hdrop, hrest]; rfl⟩

/-- Settles O46: the command stays in flight with its operands, on which its result depends. -/
theorem commandInFlightUndisturbed : Obligations.CommandInFlightUndisturbed := by
  intro n s hi hb hn hx
  have hquiet : ∀ x ∈ s.pending.take n, ∃ a, x = .bus a ∧ x.AsksNoReset := by
    intro x hmem
    obtain ⟨a, rfl, ha⟩ := hx x hmem
    exact ⟨a, rfl, by simp, fun d hd => ha d (Input.bus.inj hd)⟩
  obtain ⟨t, hrun, hsame, hdrop⟩ := run_sameCommand hi hb hn hquiet
  have hengine := engineStep_sameCommand hi hb hsame
  obtain ⟨hbusy, hA, hB, hcmdr, hZ⟩ := hsame
  exact ⟨t, hrun, hbusy.trans hb, hA, hB, hcmdr, hZ, hdrop, hengine⟩

/-! ## A result that stands (R66) -/

/-- The input asks for no reset and is no CMD write. -/
def Input.AsksNoCommand (x : Input) : Prop :=
  x.AsksNoReset ∧ ∀ d, x ≠ .bus (Access.w 0x00C d)

/-- A block that is idle, not held in reset, and has the result `z`. -/
def State.Rests (s : State) (z : Elem) : Prop := s.rstLow = false ∧ s.BUSY = false ∧ s.Z = z

/-- Every change that would start a command or touch Z needs a CMD write, a reset, or a command in
flight. -/
theorem Change.rests {s t : State} {z : Elem} (h : Change s t) (hs : s.Rests z)
    (hx : ∀ x, s.pending.head? = some x → x.AsksNoCommand) : t.Rests z := by
  obtain ⟨hr, hb, hz⟩ := hs
  cases h with
  | reset _ hdue _ => exact absurd hdue (not_resetDue hr fun x hhead => (hx x hhead).1)
  | answer _ _ | writeA _ _ _ _ _ | writeB _ _ _ _ _ | ie _ _ _ => exact ⟨hr, hb, hz⟩
  | status d _ => simp [State.Rests, hr, hb, hz]
  | fail d _ _ _ ho => exact absurd rfl ((hx _ ho.2).2 d)
  | accept op k _ _ _ ho => exact absurd rfl ((hx _ ho.2).2 (commandWord op k))
  | drop _ _ hbusy _ _ | count _ hbusy _ _ | complete _ _ hbusy _ _ =>
    rw [hb] at hbusy
    cases hbusy

theorem run_rests {n : Nat} {s : State} {z : Elem} (hs : s.Rests z)
    (hx : ∀ x ∈ s.pending, x.AsksNoCommand) :
    ∃ t, Sys2Proof.core.run n s = .next t ∧ t.Rests z := by
  induction n generalizing s with
  | zero => exact ⟨s, rfl, hs⟩
  | succ n ih =>
    have ⟨hr, hb, _⟩ := hs
    obtain ⟨t, hstep⟩ := step_idle_next hr hb
    have hrests := (step_change hstep).rests hs fun x hhead => hx x (List.mem_of_mem_head? hhead)
    obtain ⟨u, hrun, hu⟩ := ih hrests fun x hmem => by
      rw [step_pending hstep] at hmem
      exact hx x (List.mem_of_mem_drop hmem)
    exact ⟨u, (run_succ hstep n).trans hrun, hu⟩

/-- Settles O47: an idle block rests until a command or a reset is asked for. -/
theorem resultStandsWhileIdle : Obligations.ResultStandsWhileIdle := by
  intro n s hr hb hx
  have hquiet : ∀ x ∈ s.pending, x.AsksNoCommand := by
    intro x hmem
    obtain ⟨hassert, hcmd, hsrst⟩ := hx x hmem
    exact ⟨⟨hassert, hsrst⟩, hcmd⟩
  obtain ⟨t, hrun, -, hidle, hz⟩ := run_rests (n := n) (z := s.Z) ⟨hr, hb, rfl⟩ hquiet
  exact ⟨t, hrun, hz, hidle⟩

end Sys2Proof.Machine
end

section
/-! PROOFS. Family 30_encoding.md: the decoder and the encoder agree (R80, R84, R86, R88). -/

namespace Sys2Proof.Machine

/-- Settles O1: each instruction comes back from the decoder of its own offset, which evaluates on the
words of all but ILLEGAL_CMD. -/
theorem decodeOfEncode : Obligations.DecodeOfEncode := by
  intro i hwf
  cases i with
  | montmulP | montmulN | tomontP | tomontN | frommontP | frommontN | modmulP | modmulN =>
    exact decode_w_cmd _
  | illegalCmd d =>
    have hillegal : d ∉ legalCommandWords := by simpa [Instr.wf] using hwf
    exact (decode_w_cmd d).trans (congrArg Except.ok (decodeCmd_illegal hillegal))
  | srst => exact decode_w_ctrl _
  | ieWrite ie => cases ie <;> exact decode_w_ctrl _
  | clrDone ovr => cases ovr <;> exact decode_w_status _
  | clrOvr done =>
    cases done with
    | false => exact decode_w_status _
    | true => cases hwf

/-- Settles O2: a CMD write goes to the decoder of command words, which knows the eight. -/
theorem exactlyEightCommandWords : Obligations.ExactlyEightCommandWords :=
  fun d => (decode_w_cmd d).trans (congrArg Except.ok (decodeCmd_eq d))

/-- Settles O4: eight of the words are the encoder's own, and SRST ignores the IE bit of the
ninth. -/
theorem specWordsDecode : Obligations.SpecWordsDecode :=
  ⟨decodeOfEncode .montmulP rfl, decodeOfEncode .tomontN rfl, decodeOfEncode .frommontP rfl,
    decodeOfEncode .modmulN rfl, decodeOfEncode (.illegalCmd 0x21#32) rfl, decode_w_ctrl 3#32,
    decodeOfEncode (.ieWrite true) rfl, decodeOfEncode (.clrDone false) rfl,
    decodeOfEncode (.clrOvr false) rfl⟩

/-- A mnemonic of R88 whose instruction is written as `d` is a row of the table. -/
theorem mnemonic_row {name : String} {i : Instr} {d : Word}
    (hname : commandOfMnemonic name = some i) (hword : encode i = Access.w 0x00C d)
    (hwf : i.wf = true) :
    commandOfMnemonic name = some i ∧ encode i = Access.w 0x00C d ∧
      decode (Access.w 0x00C d) = .ok i :=
  ⟨hname, hword, hword ▸ decodeOfEncode i hwf⟩

theorem mnemonic_mem {name : String} {i : Instr} (h : commandOfMnemonic name = some i) :
    name ∈ ["MONTMUL.P", "TOMONT.P", "FROMMONT.P", "MODMUL.P", "MONTMUL.N", "TOMONT.N",
      "FROMMONT.N", "MODMUL.N"] := by
  unfold commandOfMnemonic at h
  split at h
  case h_9 => cases h
  all_goals simp

/-- Settles O58: the listed writes are the encodings of the instructions they are named for. -/
theorem pseudoInstructionsDecode : Obligations.PseudoInstructionsDecode := by
  refine ⟨⟨rfl, decodeOfEncode (.clrDone false) rfl⟩, ⟨rfl, decodeOfEncode (.clrOvr false) rfl⟩,
    ⟨rfl, decodeOfEncode .srst rfl⟩, ⟨rfl, decodeOfEncode (.ieWrite true) rfl⟩,
    ⟨rfl, decodeOfEncode (.ieWrite false) rfl⟩, ?_, fun _ _ => mnemonic_mem⟩
  intro row hrow
  simp only [List.mem_cons, List.not_mem_nil, or_false] at hrow
  rcases hrow with rfl | rfl | rfl | rfl | rfl | rfl | rfl | rfl <;> exact mnemonic_row rfl rfl rfl

end Sys2Proof.Machine
end

section
/-! PROOFS. Family 30_encoding.md: LDA, LDB and RDZ (R90). -/

namespace Sys2Proof.Machine

/-! ## Runs along a list of accesses -/

/-- A run goes along a sequence of states of which each steps to the next. -/
theorem run_along {k : Nat} {f : Nat → State} (h : ∀ n < k, step (f n) = .next (f (n + 1))) :
    Sys2Proof.core.run k (f 0) = .next (f k) := by
  induction k with
  | zero => rfl
  | succ k ih =>
    rw [run_add 1 (ih fun n hn => h n (Nat.lt_succ_of_lt hn)), run_succ (h k (Nat.lt_succ_self k))]
    rfl

/-- The block when `n` inputs are gone, with operands `a` and `b`, the i-th access having been
answered by `answer i`. -/
def State.after (s : State) (a b : Elem) (answer : Nat → Response) (n : Nat) : State :=
  { s.later n with
    A := a, B := b, resp := match n with | 0 => s.resp | i + 1 => some (answer i) }

theorem after_later (s : State) (a b : Elem) (answer : Nat → Response) (n : Nat) :
    { (s.after a b answer n).later 1 with resp := some (answer n) } =
      s.after a b answer (n + 1) := by
  simp [State.after, State.later]

/-- The n-th access of the list comes next when `n` inputs are gone. -/
theorem later_offers {s : State} {l : List Access} {rest : List Input} {n : Nat} {x : Access}
    (hr : s.rstLow = false) (hp : s.pending = l.map .bus ++ rest) (hx : l[n]? = some x) :
    (s.later n).Offers x := by
  obtain ⟨hn, -⟩ := List.getElem?_eq_some_iff.1 hx
  refine ⟨hr, ?_⟩
  rw [later_pending, List.head?_drop, hp, List.getElem?_append_left (by simpa using hn),
    List.getElem?_map, hx]
  rfl

/-! ## LDA and LDB -/

/-- The register `x` with its first `n` words taken from `v`. -/
def withWords (x v : Elem) : Nat → Elem
  | 0 => x
  | n + 1 => setElemWord (withWords x v n) n (elemWord v n)

theorem elemWord_withWords (x v : Elem) {n i : Nat} (hn : n ≤ 8) (hi : i < n) :
    elemWord (withWords x v n) i = elemWord v i := by
  induction n with
  | zero => cases hi
  | succ n ih =>
    by_cases h : i = n
    · rw [h]
      exact elemWord_setElemWord_same _ (by omega) _
    · exact (elemWord_setElemWord_ne _ (by omega) h _).trans (ih (by omega) (by omega))

/-- All eight words of `v` make `v`. -/
theorem withWords_eight (x v : Elem) : withWords x v 8 = v :=
  elem_ext fun _ hi => elemWord_withWords x v (Nat.le_refl 8) hi

theorem loadAt_getElem (base : Nat) (v : Elem) {n : Nat} (hn : n < 8) :
    (loadAt base v)[n]? = some (Access.w (base + 4 * n) (elemWord v n)) := by
  simp [loadAt, hn]

/-- Eight writes are gone: the operands are as the last one left them. -/
theorem after_loadAt {s : State} {base : Nat} {v : Elem} {rest : List Input}
    (hp : s.pending = (loadAt base v).map .bus ++ rest) (a b : Elem) :
    s.after a b (fun _ => .ok) 8 =
      { s with A := a, B := b, pending := rest, resp := some .ok } := by
  simp [State.after, State.later, hp, loadAt]

/-- The eight writes of a load, of which the n-th leaves the operands `a (n + 1)` and
`b (n + 1)`. -/
theorem run_load {s : State} {base : Nat} {v : Elem} {rest : List Input} {a b : Nat → Elem}
    (hr : s.rstLow = false) (hp : s.pending = (loadAt base v).map .bus ++ rest)
    (ha : a 0 = s.A) (hb : b 0 = s.B)
    (hwrite : ∀ n < 8, ∀ t : State, t.A = a n → t.B = b n → t.BUSY = s.BUSY →
      t.Offers (Access.w (base + 4 * n) (elemWord v n)) →
      step t = .next { t.later 1 with A := a (n + 1), B := b (n + 1), resp := some .ok }) :
    Sys2Proof.core.run 8 s =
      .next { s with A := a 8, B := b 8, pending := rest, resp := some .ok } := by
  have hstep : ∀ n < 8, step (s.after (a n) (b n) (fun _ => .ok) n) =
      .next (s.after (a (n + 1)) (b (n + 1)) (fun _ => .ok) (n + 1)) := by
    intro n hn
    have ho := later_offers hr hp (loadAt_getElem base v hn)
    rw [hwrite n hn (s.after _ _ _ n) rfl rfl rfl ho, ← after_later]
    rfl
  have hrun := run_along (f := fun n => s.after (a n) (b n) (fun _ => .ok) n) hstep
  simp only [ha, hb, after_loadAt hp] at hrun
  exact hrun

/-- Settles O56: each write puts its own word, and eight words make the value. -/
theorem loadFillsOperand : Obligations.LoadFillsOperand := by
  refine fun s v rest hb hr => ⟨fun hp => ?_, fun hp => ?_⟩
  · have hrun := run_load (a := withWords s.A v) (b := fun _ => s.B) hr hp rfl rfl
      (fun n hn t hA hB hbusy ho => by
        rw [step_opA_idle hn (hbusy.trans hb) ho, hA, ← hB]
        rfl)
    rwa [withWords_eight] at hrun
  · have hrun := run_load (a := fun _ => s.A) (b := withWords s.B v) hr hp rfl rfl
      (fun n hn t hA hB hbusy ho => by
        rw [step_opB_idle hn (hbusy.trans hb) ho, hB, ← hA]
        rfl)
    rwa [withWords_eight] at hrun

/-! ## RDZ -/

theorem rdz_getElem {n : Nat} (hn : n < 8) :
    (expandPseudo .rdz).straight[n]? = some (Access.r (0x060 + 4 * n)) := by
  simp [expandPseudo, Expansion.straight, hn]

theorem elemWord_toNat (x : Elem) (i : Nat) :
    (elemWord x i).toNat = x.toNat / wordBase ^ i % wordBase := by
  rw [elemWord, BitVec.extractLsb'_toNat, Nat.shiftRight_eq_div_pow, pow_mul]
  rfl

theorem joinWords_eq_valueOf (l : List Word) : joinWords l = valueOf (l.map BitVec.toNat) := by
  induction l with
  | nil => rfl
  | cons w l ih => simp only [joinWords, List.map_cons, valueOf, ih, wordBase]

/-- The words of a register joined are its value. -/
theorem joinWords_elemWord (x : Elem) :
    joinWords ((List.range 8).map (elemWord x)) = x.toNat := by
  have hwords : ((List.range 8).map (elemWord x)).map BitVec.toNat = wordsOf x.toNat := by
    simp only [List.map_map, wordsOf]
    exact List.map_congr_left fun i _ => elemWord_toNat x i
  rw [joinWords_eq_valueOf, hwords, valueOf_wordsOf x.isLt]

/-- Settles O57: each read answers its own word of Z, which no read changes. -/
theorem readResultGivesZ : Obligations.ReadResultGivesZ := by
  refine fun s rest hr hp => ⟨fun i hi => ?_, joinWords_elemWord s.Z⟩
  refine run_along (f := s.after s.A s.B fun n => .data (elemWord s.Z n)) fun n hn => ?_
  have ho := later_offers hr hp (rdz_getElem (n := n) (by omega))
  rw [step_read (s := s.after _ _ _ n) (by omega) (by omega) ho, busRead_resZ _ (by omega),
    ← after_later]
  rfl

end Sys2Proof.Machine
end

section
/-! PROOFS. Family 30_encoding.md: WAIT (R90, R66). -/

namespace Sys2Proof.Machine

/-! ## Runs from a state that meets the invariant -/

/-- The Engine's turn ends with the block idle: CMDR names an operation while BUSY = 1 (R30). -/
theorem engineStep_idles {s : State} (hv : s.CommandValid) :
    ∃ t, engineStep s = .next t ∧ t.BUSY = false := by
  cases hb : s.BUSY with
  | false => exact ⟨s, engineStep_idle hb, hb⟩
  | true =>
    obtain ⟨hmem, -⟩ := hv hb
    obtain ⟨op, hop⟩ := opOfCode_of_mem hmem
    exact ⟨_, (engineStep_busy hb).trans (complete_eq hop), rfl⟩

/-- With nothing pending and rst_n released the step is the Engine's turn. -/
theorem step_quiet {s : State} (hr : s.rstLow = false) (hp : s.pending = []) :
    step s = engineStep s := by
  rw [step_nil hp, quietStep, if_neg (by simp [hr])]

/-- A clock edge never stops a block whose command is valid. -/
theorem step_clock_next {s : State} (hv : s.CommandValid) (hr : s.rstLow = false)
    (hx : s.pending.head? = some .clock) : ∃ t, step s = .next t := by
  cases hb : s.BUSY with
  | false => exact ⟨_, step_clock_idle hr hx hb⟩
  | true =>
    by_cases hc : s.CNT ≤ 1
    · obtain ⟨t, ht, -⟩ := engineStep_idles (s := s.later 1) hv
      exact ⟨t, (step_clock_last hr hx hb hc).trans ht⟩
    · exact ⟨_, step_clock_count hr hx hb (Nat.not_le.1 hc)⟩

/-- A step of a block that meets the invariant never stops. -/
theorem step_next {s : State} (hi : s.Inv) : ∃ t, step s = .next t := by
  obtain ⟨⟨-, -, hv, -⟩, -⟩ := hi
  cases hp : s.pending with
  | nil =>
    cases hr : s.rstLow with
    | true => exact ⟨_, (step_nil hp).trans (if_pos hr)⟩
    | false =>
      obtain ⟨t, ht, -⟩ := engineStep_idles hv
      exact ⟨t, (step_quiet hr hp).trans ht⟩
  | cons x rest =>
    have hx : s.pending.head? = some x := by rw [hp]; rfl
    cases hr : s.rstLow with
    | true => exact ⟨_, (step_cons hx).trans (if_pos hr)⟩
    | false =>
      have hinput : step s = _ := (step_cons hx).trans (if_neg (by simp [hr]))
      cases x with
      | bus a => exact step_offers_next ⟨hr, hx⟩
      | clock => exact step_clock_next hv hr hx
      | rst low => exact ⟨_, hinput⟩
      | engine =>
        obtain ⟨t, ht, -⟩ := engineStep_idles (s := s.later 1) hv
        exact ⟨t, hinput.trans ht⟩

/-- A run from a state that meets the invariant goes on and keeps it. -/
theorem run_next_inv (n : Nat) {s : State} (hi : s.Inv) :
    ∃ t, Sys2Proof.core.run n s = .next t ∧ t.Inv := by
  induction n generalizing s with
  | zero => exact ⟨s, rfl, hi⟩
  | succ n ih =>
    obtain ⟨u, hstep⟩ := step_next hi
    obtain ⟨t, hrun, ht⟩ := ih (stepKeepsInvariant s u hi hstep)
    exact ⟨t, (run_succ hstep n).trans hrun, ht⟩

/-! ## Runs until the block is quiet (log entry 2) -/

/-- Only an input that asserts rst_n asserts it: a soft reset leaves the pin alone (R155). -/
theorem step_released {s t : State} (hr : s.rstLow = false)
    (hx : s.pending.head? ≠ some (.rst true)) (h : step s = .next t) : t.rstLow = false := by
  cases step_change h with
  | reset _ hdue _ =>
    rcases hdue with hlow | hassert | ⟨d, ho, hsrst⟩
    · rw [hr] at hlow
      cases hlow
    · exact absurd hassert hx
    · have hexec : step s = .next ((s.later 1).resetBlock.respond .ok) := by
        rw [step_offers ho, access_ctrl, decodeCtrl, if_pos hsrst]
        rfl
      obtain rfl := Host.Outcome.next.inj (hexec.symm.trans h)
      exact hr
  | status d _ => simpa using hr
  | _ => exact hr

/-- Idle, with rst_n released and nothing pending: the block stays as it is. -/
def State.Quiet (s : State) : Prop := s.rstLow = false ∧ s.BUSY = false ∧ s.pending = []

theorem run_quiet (n : Nat) {s : State} (h : s.Quiet) : Sys2Proof.core.run n s = .next s := by
  obtain ⟨hr, hb, hp⟩ := h
  exact run_along (f := fun _ => s) fun _ _ => (step_quiet hr hp).trans (engineStep_idle hb)

/-- The Engine's turn, once nothing is pending, leaves the block quiet. -/
theorem step_to_quiet {s : State} (hi : s.Inv) (hr : s.rstLow = false) (hp : s.pending = []) :
    ∃ t, step s = .next t ∧ t.Quiet := by
  obtain ⟨⟨-, -, hv, -⟩, -⟩ := hi
  obtain ⟨t, hengine, hb⟩ := engineStep_idles hv
  have hstep := (step_quiet hr hp).trans hengine
  exact ⟨t, hstep, step_released hr (by simp [hp]) hstep, hb, by simp [step_pending hstep, hp]⟩

/-- A run longer than the list of pending inputs, none of which asserts rst_n, leaves the block
quiet. -/
theorem run_to_quiet {n : Nat} {s : State} (hi : s.Inv) (hr : s.rstLow = false)
    (hx : ∀ x ∈ s.pending, x ≠ .rst true) (hn : s.pending.length < n) :
    ∃ t, Sys2Proof.core.run n s = .next t ∧ t.Quiet := by
  induction n generalizing s with
  | zero => exact absurd hn (Nat.not_lt_zero _)
  | succ n ih =>
    by_cases hp : s.pending = []
    · obtain ⟨t, hstep, ht⟩ := step_to_quiet hi hr hp
      exact ⟨t, (run_succ hstep n).trans (run_quiet n ht), ht⟩
    · obtain ⟨u, hstep⟩ := step_next hi
      have hhead : s.pending.head? ≠ some (.rst true) := fun h => hx _ (List.mem_of_mem_head? h) rfl
      have hpos := List.length_pos_iff.2 hp
      have hrest := step_pending hstep
      obtain ⟨t, hrun, ht⟩ := ih (stepKeepsInvariant s u hi hstep) (step_released hr hhead hstep)
        (fun x hmem => hx x (List.mem_of_mem_drop (hrest ▸ hmem)))
        (by rw [hrest, List.length_drop]; omega)
      exact ⟨t, (run_succ hstep n).trans hrun, ht⟩

/-! ## Polls -/

/-- A poll with rst_n released answers STATUS and changes nothing else. -/
theorem step_poll {s : State} (hr : s.rstLow = false) :
    step (s.offer (Access.r 0x008)) = .next { s with resp := some (.data s.statusWord) } :=
  step_offer_read hr (by decide) (by decide)

/-- A poll answers a word, and the block is idle when bit 0 of the word is 0: the word is STATUS, or
it is free and the block is held in reset. -/
theorem poll_answer {s : State} (hi : s.Inv) :
    ∃ t v, step (s.offer (Access.r 0x008)) = .next t ∧ t.Inv ∧ t.resp = some (.data v) ∧
      (v.getLsbD 0 = false → t.BUSY = false) := by
  have hkeep : ∀ t, step (s.offer (Access.r 0x008)) = .next t → t.Inv :=
    fun t => stepKeepsInvariant _ t hi
  cases hr : s.rstLow with
  | false => exact ⟨_, _, step_poll hr, hkeep _ (step_poll hr), rfl, (statusWord_busy s).symm.trans⟩
  | true =>
    obtain ⟨t, hstep, ⟨-, -, -, -, hb, -⟩, hresp⟩ :=
      step_offer_read_reset (off := 0x008) hr (by decide) (by decide)
    exact ⟨t, _, hstep, hkeep t hstep, hresp, fun _ => hb⟩

/-! ## The loop -/

/-- What stands of a host that carries WAIT out: the block meets the invariant, every answer is a
word, every answer but the last has bit 0 = 1, and the block is idle once the last has bit 0 = 0. -/
structure HostRun.Waits (r : HostRun) : Prop where
  inv : r.block.Inv
  words : ∀ x ∈ r.answers, ∃ v, x = .data v
  busy : ∀ x ∈ r.answers.drop 1, ∃ v : Word, x = .data v ∧ v.getLsbD 0 = true
  idle : ∀ v : Word, r.answers.head? = some (.data v) → v.getLsbD 0 = false → r.block.BUSY = false

/-- The loop ends on a word exactly when its bit 0 is 0. -/
theorem wait_ends_iff (v : Word) (answers : List Response) :
    (expandPseudo .wait).next (.data v :: answers) = none ↔ v.getLsbD 0 = false := by
  change (if !v.getLsbD 0 then none else some (Access.r 0x008)) = none ↔ _
  cases v.getLsbD 0 <;> simp

theorem wait_polls {answers : List Response} (h : (expandPseudo .wait).next answers ≠ none) :
    (expandPseudo .wait).next answers = some (Access.r 0x008) :=
  (wait_next answers).resolve_left h

/-- While the loop goes on, every answer so far has bit 0 = 1. -/
theorem HostRun.Waits.all_busy {r : HostRun} (h : r.Waits)
    (hnext : (expandPseudo .wait).next r.answers ≠ none) :
    ∀ x ∈ r.answers, ∃ v : Word, x = .data v ∧ v.getLsbD 0 = true := by
  obtain ⟨block, answers⟩ := r
  cases answers with
  | nil => simp
  | cons a l =>
    obtain ⟨v, rfl⟩ := h.words a (by simp)
    have hv := Bool.eq_true_of_not_eq_false (mt (wait_ends_iff v l).2 hnext)
    intro x hx
    rcases List.mem_cons.1 hx with rfl | hx
    · exact ⟨v, rfl, hv⟩
    · exact h.busy x hx

/-- A poll keeps what stands of the host. -/
theorem HostRun.Waits.poll {r : HostRun} {t : State} {v : Word} (h : r.Waits)
    (hnext : (expandPseudo .wait).next r.answers ≠ none) (ht : t.Inv)
    (hidle : v.getLsbD 0 = false → t.BUSY = false) :
    HostRun.Waits { block := t, answers := .data v :: r.answers } where
  inv := ht
  words := List.forall_mem_cons.2 ⟨⟨v, rfl⟩, h.words⟩
  busy := h.all_busy hnext
  idle w hw := by
    obtain rfl : v = w := by simpa using hw
    exact hidle

/-- However many transitions the block makes before each poll. -/
theorem HostRun.Waits.perform {gaps : List Nat} {r : HostRun} (h : r.Waits) :
    ∃ r', (expandPseudo .wait).perform gaps r = .next r' ∧ r'.Waits := by
  induction gaps generalizing r with
  | nil => exact ⟨r, rfl, h⟩
  | cons gap gaps ih =>
    by_cases hnext : (expandPseudo .wait).next r.answers = none
    · exact ⟨r, perform_finished hnext _, h⟩
    · obtain ⟨s, hrun, hs⟩ := run_next_inv gap h.inv
      obtain ⟨t, v, hstep, ht, hresp, hidle⟩ := poll_answer hs
      obtain ⟨r', hperform, hr'⟩ := ih (h.poll hnext ht hidle)
      refine ⟨r', (perform_turn (wait_polls hnext) hrun hstep gaps).trans ?_, hr'⟩
      rw [hresp]
      exact hperform

/-- When the loop has ended, its last answer is a word with bit 0 = 0 and the block is idle. -/
theorem HostRun.Waits.ended {r : HostRun} (h : r.Waits)
    (hnext : (expandPseudo .wait).next r.answers = none) :
    r.block.BUSY = false ∧
      ∃ v : Word, r.answers.head? = some (.data v) ∧ v.getLsbD 0 = false := by
  obtain ⟨block, answers⟩ := r
  cases answers with
  | nil => cases hnext
  | cons a l =>
    obtain ⟨v, rfl⟩ := h.words a (by simp)
    have hv := (wait_ends_iff v l).1 hnext
    exact ⟨h.idle v rfl hv, v, rfl, hv⟩

/-- A poll of a quiet block ends the loop. -/
theorem wait_ends_on_quiet {s t : State} {answers : List Response} {gap : Nat} (gaps : List Nat)
    (hnext : (expandPseudo .wait).next answers ≠ none)
    (hrun : Sys2Proof.core.run gap s = .next t) (ht : t.Quiet) :
    (expandPseudo .wait).perform (gap :: gaps) { block := s, answers := answers } = .next
        { block := { t with resp := some (.data t.statusWord) },
          answers := .data t.statusWord :: answers } ∧
      (expandPseudo .wait).next (.data t.statusWord :: answers) = none := by
  obtain ⟨hr, hb, -⟩ := ht
  have hend : (expandPseudo .wait).next (.data t.statusWord :: answers) = none :=
    (wait_ends_iff _ _).2 ((statusWord_busy t).trans hb)
  exact ⟨(perform_turn (wait_polls hnext) hrun (step_poll hr) gaps).trans
    (perform_finished hend gaps), hend⟩

/-- Settles O59: every poll keeps what stands of the host, and the Engine has its turn once nothing
is pending. -/
theorem waitEndsWhenIdle : Obligations.WaitEndsWhenIdle := by
  refine ⟨rfl, fun s hr => ⟨?_, ?_⟩, fun s gaps hi => ?_,
    fun s answers gap gaps hi hr hx hgap hnext => ?_⟩
  · exact perform_turn (gap := 0) rfl rfl (step_poll hr) []
  · rw [wait_ends_iff, statusWord_busy]
  · have hstart : HostRun.Waits { block := s, answers := [] } := ⟨hi, by simp, by simp, by simp⟩
    obtain ⟨r, hperform, hr⟩ := hstart.perform (gaps := gaps)
    exact ⟨r, hperform, hr.inv, hr.busy, hr.ended⟩
  · obtain ⟨t, hrun, ht⟩ := run_to_quiet hi hr hx hgap
    obtain ⟨hperform, hend⟩ := wait_ends_on_quiet gaps hnext hrun ht
    obtain ⟨-, hidle, -⟩ := ht
    exact ⟨_, hperform, hidle, hend⟩

end Sys2Proof.Machine
end

section
/-! PROOFS. Family 40_montgomery.md: the modulus premise (R101) and the built-in constants (R103). -/

namespace Sys2Proof.Machine

/-- Settles O15: R is coprime to an odd m, and the computed inverse is one. -/
theorem modulusPremiseHolds : Obligations.ModulusPremiseHolds := by
  refine ⟨fun m hodd hlow hhigh => ?_, modulus_premise⟩
  obtain ⟨hlt, hinv, -⟩ := inverseOfRadixUnique m hodd hlow hhigh
  exact ⟨radix_coprime hodd, ⟨invR m, hlt, hinv⟩, fun _ hx => hx.trans hhigh⟩

/-- Settles O17: the residues of R are computed, and the table's inverses meet the property that only
`invR` has. -/
theorem builtInConstants : Obligations.BuiltInConstants := by
  refine ⟨by decide, by decide, Eq.symm ?_, by decide, by decide, Eq.symm ?_⟩
  · exact eq_invR (m := modulus .p) (by decide) (by decide) (by decide)
  · exact eq_invR (m := modulus .n) (by decide) (by decide) (by decide)

end Sys2Proof.Machine
end

section
/-! PROOFS. Family 40_montgomery.md: the reference algorithm (R104). -/

namespace Sys2Proof.Machine

/-- The rounds for the words of x: base^n times the new value is the old value plus x · b plus some
Q · m with Q < base^n. -/
theorem ciosRounds_spec {m b : Nat} (hodd : m % 2 = 1) (hm : m < 2 ^ 256) (hb : b < 2 ^ 256)
    (xs : List Nat) {t : CiosAcc} (ht : t.low.length = 8) :
    ∃ Q < wordBase ^ xs.length,
      wordBase ^ xs.length *
          (xs.foldl (ciosRound (wordsOf m) (wordsOf b) (minusInvWord m)) t).value =
        t.value + valueOf xs * b + Q * m := by
  induction xs generalizing t with
  | nil => exact ⟨0, by simp, by simp [valueOf]⟩
  | cons x xs ih =>
    obtain ⟨hlength, q, hq, hround⟩ := ciosRound_spec (x := x) hodd hm hb ht
    obtain ⟨Q, hQ, hrest⟩ := ih hlength
    refine ⟨q + wordBase * Q, ?_, ?_⟩
    · calc q + wordBase * Q < wordBase * (Q + 1) := by rw [mul_add_one]; omega
        _ ≤ wordBase ^ (xs.length + 1) := by
          rw [pow_succ']
          exact Nat.mul_le_mul_left _ hQ
    · rw [List.length_cons, List.foldl_cons, pow_succ', mul_assoc, hrest, valueOf]
      linear_combination hround

/-- The accumulator before the first round of R104. -/
def CiosAcc.start : CiosAcc := { low := [0, 0, 0, 0, 0, 0, 0, 0], top := 0 }

/-- The accumulator after the rounds for the eight words of a (R104). -/
def ciosAcc (m a b : Nat) : CiosAcc :=
  (wordsOf a).foldl (ciosRound (wordsOf m) (wordsOf b) (minusInvWord m)) .start

theorem montMulCios_eq (m a b : Nat) :
    montMulCios m a b =
      if m ≤ (ciosAcc m a b).value then (ciosAcc m a b).value - m else (ciosAcc m a b).value :=
  rfl

/-- The value before the final subtraction: R times it is a · b plus a multiple of m, and it is below
2 · m (R104). -/
theorem ciosAcc_value {m a b : Nat} (hodd : m % 2 = 1) (hm : m < 2 ^ 256) (ha : a < m)
    (hb : b < m) :
    (ciosAcc m a b).value * 2 ^ 256 ≡ a * b [MOD m] ∧ (ciosAcc m a b).value < 2 * m := by
  obtain ⟨Q, hQ, hrounds⟩ := ciosRounds_spec hodd hm (hb.trans hm) (wordsOf a)
    (t := .start) rfl
  have hbase : wordBase ^ 8 = 2 ^ 256 := by decide
  have hzero : CiosAcc.value .start = 0 := by decide
  rw [← ciosAcc, wordsOf_length, valueOf_wordsOf (ha.trans hm), hbase, hzero, zero_add] at hrounds
  rw [wordsOf_length, hbase] at hQ
  generalize 2 ^ 256 = R at *
  refine ⟨?_, ?_⟩
  · rw [mul_comm, hrounds]
    simp [Nat.ModEq]
  · have hab : a * b < R * m := Nat.mul_lt_mul'' (ha.trans hm) hb
    have hQm : Q * m < R * m := Nat.mul_lt_mul_of_pos_right hQ (by omega)
    refine Nat.lt_of_mul_lt_mul_left (a := R) ?_
    calc R * (ciosAcc m a b).value = a * b + Q * m := hrounds
      _ < R * m + R * m := Nat.add_lt_add hab hQm
      _ = R * (2 * m) := by ring

/-- One conditional subtraction reduces a value below 2 · m. -/
theorem condSub_reduces {m u : Nat} (hu : u < 2 * m) :
    (if m ≤ u then u - m else u) < m ∧ (if m ≤ u then u - m else u) ≡ u [MOD m] := by
  split
  next h => exact ⟨by omega, (Nat.mod_eq_sub_mod h).symm⟩
  next h => exact ⟨by omega, Nat.ModEq.refl u⟩

/-- The reference algorithm computes the Montgomery product. -/
theorem montMulCios_eq_montMul {m a b : Nat} (hodd : m % 2 = 1) (hm : m < 2 ^ 256) (ha : a < m)
    (hb : b < m) : montMulCios m a b = montMul m a b := by
  obtain ⟨hcongr, hlt⟩ := ciosAcc_value hodd hm ha hb
  obtain ⟨hred, hsame⟩ := condSub_reduces hlt
  rw [montMulCios_eq]
  exact eq_montMul hodd hred ((hsame.mul_right _).trans hcongr)

/-- Settles O21: by the rounds' invariant over the words of a, and m' by evaluation. -/
theorem ciosComputesMontgomeryProduct : Obligations.CiosComputesMontgomeryProduct :=
  ⟨fun _ _ _ hodd _ hm ha hb => montMulCios_eq_montMul hodd hm ha hb, by decide, by decide⟩

end Sys2Proof.Machine
end

section
/-! PROOFS. Family 40_montgomery.md: the laws of the Montgomery commands (R108) and their corner cases
(R105, R106, R107, R130). -/

namespace Sys2Proof.Machine

/-! ## The Montgomery product -/

/-- The Montgomery product depends on a · b modulo m alone. -/
theorem montMul_congr {m a b c d : Nat} (h : a * b ≡ c * d [MOD m]) :
    montMul m a b = montMul m c d :=
  h.mul_right _

theorem montMul_comm (m a b : Nat) : montMul m a b = montMul m b a := by
  rw [montMul, mul_comm a, montMul]

@[simp] theorem montMul_zero_left (m b : Nat) : montMul m 0 b = 0 := by simp [montMul]

@[simp] theorem montMul_zero_right (m a : Nat) : montMul m a 0 = 0 := by simp [montMul]

/-- R mod m is the Montgomery form of 1. -/
theorem montMul_radix {m x : Nat} (h : m % 2 = 1) (hx : x < m) : montMul m x (2 ^ 256 % m) = x :=
  (eq_montMul h hx ((Nat.mod_modEq _ m).symm.mul_left x)).symm

theorem montMul_one_one {m : Nat} (h : 0 < m) : montMul m 1 1 = invR m := by
  rw [montMul, one_mul, one_mul, Nat.mod_eq_of_lt (invR_lt h)]

/-! ## The conversions -/

theorem result_tomont {m : Nat} (h : m % 2 = 1) (x b : Nat) :
    result .tomont m x b = x * 2 ^ 256 % m := by
  have hrr : x * rr m ≡ x * 2 ^ 256 * 2 ^ 256 [MOD m] := by
    rw [mul_assoc, ← pow_two]
    exact (Nat.mod_modEq _ m).mul_left x
  exact (eq_montMul h (Nat.mod_lt _ (by omega))
    (((Nat.mod_modEq _ m).mul_right _).trans hrr.symm)).symm

/-- FROMMONT divides by R modulo m. -/
theorem result_frommont_mul_radix {m : Nat} (h : m % 2 = 1) (x b : Nat) :
    result .frommont m x b * 2 ^ 256 ≡ x [MOD m] := by
  have hmul := montMul_mul_radix h x 1
  rw [mul_one] at hmul
  exact hmul

theorem frommont_tomont {m x : Nat} (h : m % 2 = 1) (hx : x < m) (b : Nat) :
    result .frommont m (result .tomont m x b) b = x := by
  rw [result_tomont h]
  refine (eq_montMul h hx ?_).symm
  rw [mul_one]
  exact (Nat.mod_modEq _ m).symm

theorem tomont_frommont {m x : Nat} (h : m % 2 = 1) (hx : x < m) (b : Nat) :
    result .tomont m (result .frommont m x b) b = x := by
  rw [result_tomont h]
  exact Nat.mod_eq_of_modEq (result_frommont_mul_radix h x b) hx

/-- MONTMUL of two Montgomery forms is the Montgomery form of the product. -/
theorem montmul_tomont_tomont {m : Nat} (h : m % 2 = 1) (x y b : Nat) :
    result .montmul m (result .tomont m x b) (result .tomont m y b) =
      result .tomont m (x * y % m) b := by
  rw [result_tomont h, result_tomont h, result_tomont h]
  refine (eq_montMul h (Nat.mod_lt _ (by omega)) ?_).symm
  have hmod := fun v => Nat.mod_modEq v m
  calc x * y % m * 2 ^ 256 % m * 2 ^ 256
      ≡ x * y * 2 ^ 256 * 2 ^ 256 [MOD m] := ((hmod _).trans ((hmod _).mul_right _)).mul_right _
    _ = (x * 2 ^ 256) * (y * 2 ^ 256) := by ring
    _ ≡ (x * 2 ^ 256 % m) * (y * 2 ^ 256 % m) [MOD m] := ((hmod _).mul (hmod _)).symm

/-- Settles O18: R can be cancelled modulo both moduli, which are odd. -/
theorem montgomeryLaws : Obligations.MontgomeryLaws := by
  intro k x y hx hy m
  obtain ⟨hodd, -, -⟩ := modulus_premise k
  have hpos := modulus_pos k
  exact ⟨⟨result_lt .tomont hpos x 0, result_lt .frommont hpos x 0, frommont_tomont hodd hx 0,
    tomont_frommont hodd hx 0⟩, montmul_tomont_tomont hodd x y 0, montMul_comm m x y,
    montMul_radix hodd hx, montMul_zero_right m x, rfl, rfl⟩

/-! ## Corner cases -/

theorem radix_mod_pos {m : Nat} (h : m % 2 = 1) (h1 : 1 < m) : 0 < 2 ^ 256 % m := by
  refine Nat.pos_of_ne_zero fun hzero => ?_
  have hdvd := Nat.dvd_of_mod_eq_zero hzero
  exact (Nat.ne_of_gt h1) (Nat.Coprime.eq_one_of_dvd (radix_coprime h).symm hdvd)

/-- m - 1 is -1 modulo m. -/
theorem pred_mul_mod {m x : Nat} (h : 0 < x % m) (hm : 0 < m) : (m - 1) * x % m = m - x % m := by
  refine Nat.mod_eq_of_modEq (Nat.ModEq.add_right_cancel' x ?_) (by omega)
  have hleft : (m - 1) * x + x = m * x := by rw [← Nat.succ_mul]; congr 1; omega
  have hright : m - x % m + x = m * (1 + x / m) := by
    have := Nat.mod_add_div x m
    have := Nat.mod_lt x hm
    rw [mul_add, mul_one]
    omega
  rw [hleft, hright]
  simp [Nat.ModEq]

theorem pred_mul_pred {m : Nat} (h : 1 < m) : (m - 1) * (m - 1) ≡ 1 [MOD m] := by
  have hpred : (m - 1) % m = m - 1 := Nat.mod_eq_of_lt (by omega)
  rw [Nat.ModEq, pred_mul_mod (by omega) (by omega), hpred, Nat.mod_eq_of_lt (by omega)]
  omega

/-- Settles O19: R mod m is the Montgomery form of 1, and m - 1 is -1 modulo m. -/
theorem commandCornerCases : Obligations.CommandCornerCases := by
  intro m hodd hlow _
  have hm : 1 < m := by omega
  have hmod := Nat.mod_lt (2 ^ 256) (Nat.zero_lt_of_lt hm)
  refine ⟨fun v => ⟨montMul_zero_left m v, montMul_zero_right m v, ?_, ?_, montMul_zero_left m _,
    montMul_zero_left m 1, ?_, ?_, ?_, montMul_one_one (by omega)⟩, ?_, ?_, ?_, ?_⟩
  · simp [result]
  · simp [result]
  · rw [result_tomont hodd, one_mul]
  · rw [result_tomont hodd, pred_mul_mod (radix_mod_pos hodd hm) (by omega)]
  · exact (montMul_comm m _ 1).trans (montMul_radix hodd hm)
  · exact (montMul_congr (c := 1) (d := 1) (pred_mul_pred hm)).trans (montMul_one_one (by omega))
  · exact montMul_radix hodd hmod
  · intro v hv
    rw [result, one_mul, Nat.mod_eq_of_lt hv]
  · exact Nat.mod_eq_of_modEq (pred_mul_pred hm) hm

end Sys2Proof.Machine
end

section
/-! PROOFS. Family 40_montgomery.md: the Montgomery commands from their acceptance to the Engine's
result (R105, R106, R107, R140, R150). -/

namespace Sys2Proof.Machine

/-- A command of an idle block whose operands are in range is accepted, and the Engine then puts the
result of its operation, with all its properties, into Z (R140, R150, R151). -/
theorem command_completes {i : Instr} {op : Op} {k : MSel} {s : State} {P : Elem → Prop}
    (hexec : exec i s = .next ((s.issue op k).respond .ok)) (hb : s.BUSY = false)
    (ha : s.A.toNat < modulus k) (hB : readsB op = true → s.B.toNat < modulus k)
    (hP : ∀ z : Elem, z.toNat = result op (modulus k) s.A.toNat s.B.toNat → P z) :
    exec i s = .next (s.accepted (k.bit ++ op.code)) ∧
    ∃ z : Elem, engineStep (s.accepted (k.bit ++ op.code)) =
      .next ((s.accepted (k.bit ++ op.code)).completed z) ∧ P z :=
  ⟨hexec.trans (congrArg _ (issue_accepts hb ha hB)), _, engineStep_accepted s op k,
    hP _ (ofNat_result op k s.A.toNat s.B.toNat)⟩

/-- A register that holds MONTMUL's result holds the residue that R takes to a · b (R100, R102). -/
theorem montmul_residue {k : MSel} {a b : Nat} {z : Elem}
    (hz : z.toNat = result .montmul (modulus k) a b) :
    z.toNat < modulus k ∧ z.toNat * 2 ^ 256 % modulus k = a * b % modulus k := by
  obtain ⟨hodd, -, -⟩ := modulus_premise k
  rw [hz]
  exact ⟨result_lt .montmul (modulus_pos k) a b, montMul_mul_radix hodd a b⟩

/-- A register that holds FROMMONT's result holds the residue that R takes to a (R107, R102). -/
theorem frommont_residue {k : MSel} {a b : Nat} {z : Elem} (ha : a < modulus k)
    (hz : z.toNat = result .frommont (modulus k) a b) :
    z.toNat < modulus k ∧ z.toNat * 2 ^ 256 % modulus k = a := by
  obtain ⟨hodd, -, -⟩ := modulus_premise k
  rw [hz]
  exact ⟨result_lt .frommont (modulus_pos k) a b,
    Nat.mod_eq_of_modEq (result_frommont_mul_radix hodd a b) ha⟩

/-- Settles O22: MONTMUL is accepted, and its result is the residue that R takes to A · B. -/
theorem montmulCompletes : Obligations.MontmulCompletes := by
  refine fun s hb => ⟨fun ha hB => ?_, fun ha hB => ?_⟩
  · exact command_completes (op := .montmul) (k := .p) rfl hb ha (fun _ => hB)
      fun _ => montmul_residue
  · exact command_completes (op := .montmul) (k := .n) rfl hb ha (fun _ => hB)
      fun _ => montmul_residue

/-- Settles O23: TOMONT is accepted without a check of B, and its result is A · R mod m. -/
theorem tomontCompletes : Obligations.TomontCompletes := by
  refine fun s hb => ⟨fun ha => ?_, fun ha => ?_⟩
  · exact command_completes (op := .tomont) (k := .p) rfl hb ha nofun
      fun _ hz => hz.trans (result_tomont rfl _ _)
  · exact command_completes (op := .tomont) (k := .n) rfl hb ha nofun
      fun _ hz => hz.trans (result_tomont rfl _ _)

/-- Settles O24: FROMMONT is accepted without a check of B, and its result is the residue that R
takes to A. -/
theorem frommontCompletes : Obligations.FrommontCompletes := by
  refine fun s hb => ⟨fun ha => ?_, fun ha => ?_⟩
  · exact command_completes (op := .frommont) (k := .p) rfl hb ha nofun
      fun _ => frommont_residue ha
  · exact command_completes (op := .frommont) (k := .n) rfl hb ha nofun
      fun _ => frommont_residue ha

end Sys2Proof.Machine
end

section
/-! PROOFS. Family 41_modmul.md: the plain modular multiply in terms of the Montgomery commands (R131)
and from its acceptance to the Engine's result (R130, R140, R150). -/

namespace Sys2Proof.Machine

/-- A second Montgomery pass, by R² mod m, takes out the inverse of R that the first one leaves. -/
theorem montMul_montMul_rr {m : Nat} (h : m % 2 = 1) (a b : Nat) :
    montMul m (montMul m a b) (rr m) = a * b % m :=
  calc montMul m (montMul m a b) (rr m)
      = montMul m a b * 2 ^ 256 % m := result_tomont h _ 0
    _ = a * b % m := montMul_mul_radix h a b

/-- The product of the Montgomery forms, converted back, is the plain product. -/
theorem frommont_montmul_tomont_tomont {m : Nat} (h : m % 2 = 1) (x y b : Nat) :
    result .frommont m (result .montmul m (result .tomont m x b) (result .tomont m y b)) b =
      x * y % m := by
  rw [montmul_tomont_tomont h]
  exact frommont_tomont h (Nat.mod_lt _ (by omega)) b

/-- Settles O20: both circuits compute a · b mod m, as both moduli are odd. -/
theorem modmulFromMontgomery : Obligations.ModmulFromMontgomery := by
  intro k a b _ _
  obtain ⟨hodd, -, -⟩ := modulus_premise k
  exact ⟨(montMul_montMul_rr hodd a b).symm, (frommont_montmul_tomont_tomont hodd a b 0).symm⟩

/-- Settles O25: MODMUL is accepted, and its result is A · B mod m. -/
theorem modmulCompletes : Obligations.ModmulCompletes := by
  refine fun s hb => ⟨fun ha hB => ?_, fun ha hB => ?_⟩
  · exact command_completes (op := .modmul) (k := .p) rfl hb ha (fun _ => hB) fun _ hz => hz
  · exact command_completes (op := .modmul) (k := .n) rfl hb ha (fun _ => hB) fun _ hz => hz

end Sys2Proof.Machine
end

section
/-! PROOFS. Family 42_control.md: the CMD write in the order of R205 (R140, R159, R160), and
BUSY. -/

namespace Sys2Proof.Machine

/-- Settles O43: a step of a block that meets the invariant answers a next state that meets it, and
a run is a chain of such steps. -/
theorem neverStuck : Obligations.NeverStuck :=
  fun n _ hi => run_next_inv n hi

/-! ## The fields of a command word (R80, R84) -/

theorem modulus_mselOfBit (b : Bool) :
    modulus (mselOfBit b) = if b = true then Config.modN else Config.modP := by
  cases b <;> rfl

theorem commandWord_msel (op : Op) (k : MSel) :
    mselOfBit ((commandWord op k).getLsbD 4) = k := by
  cases op <;> cases k <;> decide

theorem commandWord_legal (op : Op) (k : MSel) : commandWord op k ∈ legalCommandWords := by
  cases op <;> cases k <;> decide

/-- The operations that read B are those whose code R140 lists. -/
theorem code_of_readsB {op : Op} (h : readsB op = true) : op.code ∈ [1#4, 4#4] := by
  cases op with
  | montmul | modmul => decide
  | tomont | frommont => cases h

/-- The illegal words, in the words in which R159 gives them. -/
theorem not_mem_legalCommandWords {d : Word} :
    d ∉ legalCommandWords ↔
      d.extractLsb' 5 27 ≠ 0#27 ∨ d.extractLsb' 0 4 ∉ [1#4, 2#4, 3#4, 4#4] := by
  rw [mem_legalCommandWords, not_and_or]

theorem decodeCmd_illegal_iff {d : Word} :
    decodeCmd d = .illegalCmd d ↔ d ∉ legalCommandWords := by
  refine ⟨fun h => ?_, decodeCmd_illegal⟩
  obtain ⟨hwf, -⟩ := decodeCmd_wf d
  rw [h] at hwf
  simpa [Instr.wf] using hwf

/-- An OP field that names no operation, by its value. -/
theorem op_illegal_iff (c : BitVec 4) :
    c ∉ [1#4, 2#4, 3#4, 4#4] ↔ c.toNat = 0 ∨ 5 ≤ c.toNat := by
  revert c
  decide

/-! ## The outcome of a CMD write -/

/-- An idle block's outcome for a legal word: the range checks of R140 in the order of R205. -/
theorem issue_idle_eq {s : State} (op : Op) (k : MSel) (hb : s.BUSY = false) :
    (s.issue op k).respond .ok =
      if modulus k ≤ s.A.toNat then s.failed (k.bit ++ op.code) 2#4
      else if op.code ∈ [1#4, 4#4] ∧ modulus k ≤ s.B.toNat then s.failed (k.bit ++ op.code) 3#4
      else s.accepted (k.bit ++ op.code) := by
  split
  next ha => exact issue_rangeA hb ha
  next ha =>
    split
    next hB =>
      obtain ⟨hcode, hm⟩ := hB
      exact issue_rangeB hb (Nat.not_le.1 ha) (readsB_of_code hcode) hm
    next hB =>
      exact issue_accepts hb (Nat.not_le.1 ha) fun h =>
        Nat.not_le.1 fun hm => hB ⟨code_of_readsB h, hm⟩

/-- Settles O26: a busy block drops the write, an idle one rejects an illegal word before it looks
at the operands, and a legal one meets the range checks. -/
theorem commandWriteOutcome : Obligations.CommandWriteOutcome := by
  intro s d ho
  dsimp only
  rw [step_offers ho, ← modulus_mselOfBit]
  rcases access_cmd_cases d (s.later 1) with ⟨hb, h⟩ | ⟨hb, hl, h⟩ | ⟨hb, op, k, rfl, h⟩
  · rw [h, if_pos (by exact hb)]
  · rw [h, if_neg (by simpa using hb), if_pos (not_mem_legalCommandWords.1 hl)]
  · have hl := mt not_mem_legalCommandWords.2 (not_not_intro (commandWord_legal op k))
    rw [h, if_neg (by simpa using hb), if_neg hl,
      issue_idle_eq op k hb, commandWord_op, commandWord_msel, commandWord_low]
    rfl

/-- Settles O27: the error completion is E_OPCODE, and the words are those the decoder does not
know. -/
theorem illegalCommandEndsInError : Obligations.IllegalCommandEndsInError := by
  refine fun s d hb => ⟨congrArg _ (issueIllegal_idle d hb), ?_, fun hovr => ⟨?_, ?_⟩⟩
  · rw [decode_w_cmd, Except.ok.injEq, decodeCmd_illegal_iff, not_mem_legalCommandWords,
      op_illegal_iff]
  · change State.statusWord _ = _
    simp [State.statusWord, State.failed, hovr, hb]
  · exact BitVec.setWidth_eq_append (by decide)

/-- Settles O51: of all changes, only an acceptance sets BUSY. -/
theorem busyRisesOnlyByAcceptance : Obligations.BusyRisesOnlyByAcceptance := by
  intro s t h hidle hbusy
  cases step_change h with
  | accept op k _ ha hB ho =>
    refine ⟨_, commandWord_legal op k, ho, ?_, ?_⟩
    · rw [commandWord_low]
    · rw [commandWord_op, commandWord_msel]
      exact ⟨ha, fun hcode => hB (readsB_of_code hcode)⟩
  | reset hreset _ _ =>
    obtain ⟨-, -, -, -, hb, -⟩ := hreset
    rw [hb] at hbusy
    cases hbusy
  | complete _ _ _ _ _ => cases hbusy
  | status d _ => simp [hidle] at hbusy
  | _ => exact absurd (hidle.symm.trans hbusy) Bool.false_ne_true

/-! ## Writes dropped while BUSY = 1 (R160) -/

theorem step_cmd_busy {s : State} {d : Word} (hb : s.BUSY = true)
    (ho : s.Offers (Access.w 0x00C d)) : step s = .next (s.later 1).dropped := by
  rw [step_offers ho]
  rcases access_cmd_cases d (s.later 1) with ⟨-, h⟩ | ⟨hidle, -⟩ | ⟨hidle, -⟩
  · exact h
  · exact absurd (hidle.symm.trans hb) Bool.false_ne_true
  · exact absurd (hidle.symm.trans hb) Bool.false_ne_true

/-- The command in flight completes as it would have: completion does not read OVR or the answer. -/
theorem engineStep_dropped {s u : State} (hb : s.BUSY = true) (h : engineStep s = .next u) :
    engineStep s.dropped = .next u.dropped := by
  rw [engineStep_busy hb] at h
  obtain ⟨op, hop, rfl⟩ := complete_cases h
  exact (engineStep_busy (s := s.dropped) hb).trans (complete_eq (s := s.dropped) hop)

/-- Settles O29: the offsets are CMD's and those of the words of A and B. -/
theorem droppedWhileBusy : Obligations.DroppedWhileBusy := by
  refine fun s off d hb h4 hoff ho => ⟨?_, fun _ => engineStep_dropped (s := s.later 1) hb⟩
  rcases hoff with rfl | ⟨hlow, hhigh⟩
  · exact step_cmd_busy hb ho
  · by_cases hA : off < 0x040
    · obtain ⟨i, hi, rfl⟩ : ∃ i < 8, off = 0x020 + 4 * i := ⟨(off - 0x020) / 4, by omega, by omega⟩
      exact step_opA_busy hi hb ho
    · obtain ⟨i, hi, rfl⟩ : ∃ i < 8, off = 0x040 + 4 * i := ⟨(off - 0x040) / 4, by omega, by omega⟩
      exact step_opB_busy hi hb ho

/-- The eight commands are CMD writes of an operation and a modulus. -/
theorem command_is_issue {i : Instr}
    (h : i ∈ [Instr.montmulP, .montmulN, .tomontP, .tomontN, .frommontP, .frommontN, .modmulP,
      .modmulN]) :
    ∃ op k, ∀ s, exec i s = .next ((s.issue op k).respond .ok) := by
  simp only [List.mem_cons, List.not_mem_nil, or_false] at h
  rcases h with rfl | rfl | rfl | rfl | rfl | rfl | rfl | rfl
  · exact ⟨.montmul, .p, fun _ => rfl⟩
  · exact ⟨.montmul, .n, fun _ => rfl⟩
  · exact ⟨.tomont, .p, fun _ => rfl⟩
  · exact ⟨.tomont, .n, fun _ => rfl⟩
  · exact ⟨.frommont, .p, fun _ => rfl⟩
  · exact ⟨.frommont, .n, fun _ => rfl⟩
  · exact ⟨.modmul, .p, fun _ => rfl⟩
  · exact ⟨.modmul, .n, fun _ => rfl⟩

/-- Settles O30: every command is a CMD write, and a busy block drops it. -/
theorem commandsDroppedWhileBusy : Obligations.CommandsDroppedWhileBusy := by
  intro s hb i hi
  obtain ⟨op, k, hexec⟩ := command_is_issue hi
  exact ⟨(hexec s).trans (congrArg _ (issue_busy op k hb)),
    fun d => congrArg _ (issueIllegal_busy d hb)⟩

end Sys2Proof.Machine
end

section
/-! PROOFS. Family 42_control.md: the Engine's turn and its result (R150, R151, R152). -/

namespace Sys2Proof.Machine

/-! ## Completion -/

/-- A valid command in flight completes, with a result below its modulus (R102). -/
theorem engineStep_completes {s : State} (hv : s.CommandValid) (hb : s.BUSY = true) :
    ∃ z : Elem, engineStep s = .next (s.completed z) ∧
      z.toNat < modulus (mselOfBit (s.CMDR.getLsbD 4)) := by
  obtain ⟨hmem, -⟩ := hv hb
  obtain ⟨op, hop⟩ := opOfCode_of_mem hmem
  exact ⟨_, (engineStep_busy hb).trans (complete_eq hop), result_toNat_lt op _ _ _⟩

theorem step_engine {s : State} (hr : s.rstLow = false) (hx : s.pending.head? = some .engine) :
    step s = engineStep (s.later 1) := by
  rw [step_cons hx]
  simp [input, hr]

/-- Settles O34: the Engine's input and the quiet step are the same turn. -/
theorem engineTurn : Obligations.EngineTurn := by
  refine ⟨fun s hr hb hx => ?_, fun s hi hb hx => ?_, fun s hi hb hp => ?_, fun s hr hb hp => ?_⟩
  · exact (step_engine hr hx).trans (engineStep_idle hb)
  · have ⟨⟨_, _, hv, _⟩, _⟩ := hi
    rw [step_engine (released_of_busy hi hb) hx]
    exact engineStep_completes (s := s.later 1) hv hb
  · have ⟨⟨_, _, hv, _⟩, _⟩ := hi
    rw [step_quiet (released_of_busy hi hb) hp]
    exact engineStep_completes hv hb
  · exact (step_quiet hr hp).trans (engineStep_idle hb)

/-- Settles O35: the completed state has all but Z, BUSY, DONE and CNT from before. -/
theorem completionFrame : Obligations.CompletionFrame := by
  intro s ⟨_, _, hv, _⟩ hb
  obtain ⟨z, hstep, -⟩ := engineStep_completes hv hb
  exact ⟨_, hstep, rfl, rfl, rfl, rfl, rfl, rfl, rfl, rfl, rfl, Bool.and_true s.IE⟩

/-! ## The result (R151) -/

/-- Completion puts the result of the operation that CMDR names into Z, exactly. -/
theorem engineStep_Z {s t : State} {op : Op} (hb : s.BUSY = true) (h : engineStep s = .next t)
    (hc : s.CMDR.extractLsb' 0 4 = op.code) :
    t.Z.toNat =
      result op (modulus (mselOfBit (s.CMDR.getLsbD 4))) s.A.toNat s.B.toNat := by
  rw [engineStep_busy hb, complete_eq (by rw [hc, opOfCode_code])] at h
  obtain rfl := Host.Outcome.next.inj h
  exact ofNat_result op _ _ _

theorem engineStep_Z_lt {s t : State} (hb : s.BUSY = true) (h : engineStep s = .next t) :
    t.Z.toNat < modulus (mselOfBit (s.CMDR.getLsbD 4)) := by
  rw [engineStep_busy hb] at h
  obtain ⟨op, -, rfl⟩ := complete_cases h
  exact result_toNat_lt op _ _ _

/-- CMDR, A and B determine the result. -/
theorem engineStep_Z_congr {s s' t t' : State} (hb : s.BUSY = true) (hb' : s'.BUSY = true)
    (hcmdr : s'.CMDR = s.CMDR) (hA : s'.A = s.A) (hB : s'.B = s.B)
    (h : engineStep s = .next t) (h' : engineStep s' = .next t') : t'.Z = t.Z := by
  rw [engineStep_busy hb] at h
  obtain ⟨op, hop, rfl⟩ := complete_cases h
  rw [engineStep_busy hb', complete_eq (by rw [hcmdr, hop])] at h'
  obtain rfl := Host.Outcome.next.inj h'
  simp only [State.completed, hcmdr, hA, hB]

/-- Settles O36: each operation's result has its property modulo both moduli, which are odd. -/
theorem engineResult : Obligations.EngineResult := by
  intro s t _ hb h
  dsimp only
  rw [← modulus_mselOfBit]
  obtain ⟨hodd, -, -⟩ := modulus_premise (mselOfBit (s.CMDR.getLsbD 4))
  refine ⟨engineStep_Z_lt hb h, fun hc => ?_, fun hc => ?_, fun hc => ?_, fun hc => ?_,
    fun _ _ _ hb' hcmdr hA hB => engineStep_Z_congr hb hb' hcmdr hA hB h⟩
  · exact (montmul_residue (engineStep_Z (op := .montmul) hb h hc)).2
  · exact (engineStep_Z (op := .tomont) hb h hc).trans (result_tomont hodd _ _)
  · rw [engineStep_Z (op := .frommont) hb h hc]
    exact result_frommont_mul_radix hodd _ _
  · exact engineStep_Z (op := .modmul) hb h hc

end Sys2Proof.Machine
end

section
/-! PROOFS. Family 42_control.md: the control actions (R155 to R158). -/

namespace Sys2Proof.Machine

/-! ## CTRL writes (R155, R156) -/

theorem step_ctrl_srst {s : State} {d : Word} (h : d.getLsbD 1 = true)
    (ho : s.Offers (Access.w 0x004 d)) : step s = .next ((s.later 1).resetBlock.respond .ok) := by
  rw [step_offers ho, access_ctrl, decodeCtrl, if_pos h]
  rfl

theorem step_ctrl_ie {s : State} {d : Word} (h : d.getLsbD 1 = false)
    (ho : s.Offers (Access.w 0x004 d)) :
    step s = .next { s.later 1 with IE := d.getLsbD 0, resp := some .ok } := by
  rw [step_offers ho, access_ctrl, decodeCtrl, if_neg (Bool.eq_false_iff.1 h)]
  rfl

/-- The block's fields after a reset are those of `State.reset`; the interface's are kept. -/
theorem resetBlock_eq (s : State) :
    s.resetBlock = { State.reset with
      rstLow := s.rstLow, pending := s.pending, resp := s.resp, freeIdx := s.freeIdx } :=
  rfl

/-- Settles O31: bit 1 alone decides, and BUSY is not looked at. -/
theorem softReset : Obligations.SoftReset := by
  refine ⟨fun s => rfl, fun s d h ho => ?_⟩
  rw [step_ctrl_srst h ho, resetBlock_eq, later_rstLow, ho.1]
  rfl

/-- Settles O32: with bit 1 clear the write is an IE write, and irq is read from the new IE. -/
theorem interruptEnableWrite : Obligations.InterruptEnableWrite :=
  ⟨fun _ _ => rfl, fun _ _ h ho => ⟨_, step_ctrl_ie h ho, rfl, rfl⟩⟩

/-! ## STATUS writes (R157, R158) -/

/-- StatusWrite as one update: each W1C bit acts on its own fields. -/
theorem statusWrite_eq (s : State) (done ovr : Bool) :
    s.statusWrite done ovr = { s with
      DONE := if done = true then false else s.DONE
      ERR := if done = true then false else s.ERR
      ERRCODE := if done = true then 0#4 else s.ERRCODE
      OVR := if ovr = true then false else s.OVR } := by
  cases done <;> cases ovr <;> rfl

theorem step_status {s : State} {d : Word} (ho : s.Offers (Access.w 0x008 d)) :
    step s = .next (((s.later 1).statusWrite (d.getLsbD 1) (d.getLsbD 3)).respond .ok) :=
  (step_offers ho).trans (access_status d (s.later 1))

/-- While BUSY = 1 there is no status to clear but OVR (R30). -/
theorem statusWrite_busy {s : State} (hclear : s.BusyStatusClear) (hb : s.BUSY = true)
    (done : Bool) : s.statusWrite done false = s := by
  obtain ⟨hdone, herr, hcode⟩ := hclear hb
  cases done with
  | false => rfl
  | true =>
    cases s
    dsimp only at hdone herr hcode
    subst hdone herr hcode
    rfl

/-- Settles O33: a STATUS write is StatusWrite of its two W1C bits, and so are CLRDONE and
CLROVR. -/
theorem statusWriteClears : Obligations.StatusWriteClears := by
  refine ⟨fun s v => ?_, fun s v => ?_, fun s d ho => ⟨?_, fun hi hb h3 => ?_⟩⟩
  · cases v <;> rfl
  · cases v <;> rfl
  · rw [step_status ho, statusWrite_eq]
    rfl
  · have ⟨⟨hclear, _⟩, _⟩ := hi
    rw [step_status ho, h3, statusWrite_busy (s := s.later 1) hclear hb]
    rfl

/-- Settles O5: the word with both W1C bits is decoded as CLRDONE, and both meanings clear both. -/
theorem bothClearsOneMeaning : Obligations.BothClearsOneMeaning :=
  ⟨rfl, decodeOfEncode (.clrDone true) rfl, fun _ => rfl⟩

end Sys2Proof.Machine
end

section
/-! PROOFS. Family 60_exceptions.md: the error completion (R200) and the irq level (R204). -/

namespace Sys2Proof.Machine

/-! ## The irq level after each shared operation -/

@[simp] theorem irq_failed (s : State) (c : BitVec 5) (e : BitVec 4) :
    (s.failed c e).irq = s.IE :=
  Bool.and_true s.IE

@[simp] theorem irq_accepted (s : State) (c : BitVec 5) : (s.accepted c).irq = false :=
  Bool.and_false s.IE

@[simp] theorem irq_completed (s : State) (z : Elem) : (s.completed z).irq = s.IE :=
  Bool.and_true s.IE

@[simp] theorem irq_statusWrite (s : State) (done ovr : Bool) (r : Response) :
    ((s.statusWrite done ovr).respond r).irq = (s.irq && !done) := by
  rw [statusWrite_eq]
  cases done with
  | false => exact (Bool.and_true s.irq).symm
  | true => simp [State.irq, State.respond]

theorem irq_iff {s : State} : s.irq = true ↔ s.IE = true ∧ s.DONE = true :=
  Bool.and_eq_true_iff

/-! ## The error completion -/

theorem exec_rangeA (op : Op) (k : MSel) {i : Instr} {s : State}
    (hexec : exec i s = .next ((s.issue op k).respond .ok)) (hb : s.BUSY = false)
    (ha : modulus k ≤ s.A.toNat) : exec i s = .next (s.failed (k.bit ++ op.code) 2#4) :=
  hexec.trans (congrArg _ (issue_rangeA hb ha))

theorem exec_rangeB (op : Op) (k : MSel) {i : Instr} {s : State}
    (hexec : exec i s = .next ((s.issue op k).respond .ok)) (hb : s.BUSY = false)
    (ha : s.A.toNat < modulus k) (hr : readsB op = true) (hB : modulus k ≤ s.B.toNat) :
    exec i s = .next (s.failed (k.bit ++ op.code) 3#4) :=
  hexec.trans (congrArg _ (issue_rangeB hb ha hr hB))

/-- Settles O28: a command is a CMD write, whose range checks depend on the operation only by
whether it reads B. -/
theorem failedCommandTouchesStatusOnly : Obligations.FailedCommandTouchesStatusOnly := by
  intro s hb
  refine ⟨fun d => congrArg _ (issueIllegal_idle d hb), fun ha => ?_, fun ha => ?_,
    fun ha hB => ?_, fun ha hB => ?_, irq_failed s⟩
  · exact ⟨exec_rangeA .montmul .p rfl hb ha, exec_rangeA .tomont .p rfl hb ha,
      exec_rangeA .frommont .p rfl hb ha, exec_rangeA .modmul .p rfl hb ha⟩
  · exact ⟨exec_rangeA .montmul .n rfl hb ha, exec_rangeA .tomont .n rfl hb ha,
      exec_rangeA .frommont .n rfl hb ha, exec_rangeA .modmul .n rfl hb ha⟩
  · exact ⟨exec_rangeB .montmul .p rfl hb ha rfl hB, exec_rangeB .modmul .p rfl hb ha rfl hB⟩
  · exact ⟨exec_rangeB .montmul .n rfl hb ha rfl hB, exec_rangeB .modmul .n rfl hb ha rfl hB⟩

/-! ## What moves the irq level -/

/-- Settles O52: of all changes, only completion, failure, acceptance, reset and the writes of IE
and STATUS touch IE or DONE. -/
theorem interruptLevelChanges : Obligations.InterruptLevelChanges := by
  intro s t h
  cases step_change h with
  | reset hreset hdue _ =>
    refine ⟨fun _ hrise => ?_, fun _ _ => .inr (.inr (.inr ⟨hdue, hreset⟩))⟩
    exact absurd ((irq_of_atReset hreset).symm.trans hrise) Bool.false_ne_true
  | complete op _ hb _ _ =>
    refine ⟨fun _ _ => .inl ⟨hb, rfl, rfl⟩, fun hhigh hfall => ?_⟩
    obtain ⟨hie, -⟩ := irq_iff.1 hhigh
    simp [hie] at hfall
  | fail d e _ _ ho =>
    refine ⟨fun _ _ => .inr (.inl ⟨d, ho, rfl⟩), fun hhigh hfall => ?_⟩
    obtain ⟨hie, -⟩ := irq_iff.1 hhigh
    simp [hie] at hfall
  | accept op k hb _ _ _ =>
    refine ⟨fun _ hrise => ?_, fun _ _ => .inr (.inl ⟨hb, rfl⟩)⟩
    simp at hrise
  | ie d h1 ho =>
    refine ⟨fun _ hrise => ?_, fun hhigh hfall => .inr (.inr (.inl ⟨d, ho, h1, ?_⟩))⟩
    · obtain ⟨hie, hdone⟩ := irq_iff.1 hrise
      exact .inr (.inr ⟨d, ho, h1, hie, hdone⟩)
    · obtain ⟨-, hdone⟩ := irq_iff.1 hhigh
      simpa [State.irq, hdone] using hfall
  | status d ho =>
    refine ⟨fun hlow hrise => ?_, fun hhigh hfall => .inl ⟨d, ho, ?_⟩⟩
    · have hirq : (s.later 1).irq = false := hlow
      simp [hirq] at hrise
    · have hirq : (s.later 1).irq = true := hhigh
      simpa [hirq] using hfall
  | _ =>
    exact ⟨fun hlow hrise => absurd (hlow.symm.trans hrise) Bool.false_ne_true,
      fun hhigh hfall => absurd (hfall.symm.trans hhigh) Bool.false_ne_true⟩

end Sys2Proof.Machine
end

section
/-! PROOFS. Family 70_reset_and_hazards.md: aborted commands (R251) and the block held in reset
(R250). -/

namespace Sys2Proof.Machine

/-! ## A command that a reset meets (R251) -/

/-- A property that every step keeps holds at the end of a run that starts with it. -/
theorem run_keeps {P : State → Prop} (hstep : ∀ {s t : State}, step s = .next t → P s → P t)
    {n : Nat} {s t : State} (h : Sys2Proof.core.run n s = .next t) (hs : P s) : P t := by
  induction n generalizing s with
  | zero =>
    obtain rfl := Host.Outcome.next.inj h
    exact hs
  | succ n ih =>
    obtain ⟨u, hfirst, hrest⟩ := run_succ_next h
    exact ih hrest (hstep hfirst hs)

/-- No command has run since the reset, and no pending input starts one. -/
def State.Aborted (s : State) : Prop :=
  (s.Z = 0#256 ∧ s.BUSY = false ∧ s.DONE = false ∧ s.ERR = false) ∧
    ∀ x ∈ s.pending, ∀ d, x ≠ .bus (Access.w 0x00C d)

/-- The block is at reset, and no host access is pending. -/
def State.LeftAtReset (s : State) : Prop := s.AtReset ∧ ∀ x ∈ s.pending, ∀ a, x ≠ .bus a

/-- Every change that would set Z, BUSY, DONE or ERR needs a CMD write or a command in flight. -/
theorem step_aborted {s t : State} (h : step s = .next t) (hs : s.Aborted) : t.Aborted := by
  obtain ⟨hclear, hx⟩ := hs
  refine ⟨?_, fun x hmem => hx x (List.mem_of_mem_drop (step_pending h ▸ hmem))⟩
  have ⟨hZ, hidle, hdone, herr⟩ := hclear
  cases step_change h with
  | reset hreset _ _ =>
    obtain ⟨-, -, hZ, -, hb, hd, he, -⟩ := hreset
    exact ⟨hZ, hb, hd, he⟩
  | answer _ _ | writeA _ _ _ _ _ | writeB _ _ _ _ _ | ie _ _ _ => exact hclear
  | status d _ => simp [hZ, hidle, hdone, herr]
  | fail d _ _ _ ho => exact absurd rfl (hx _ (List.mem_of_mem_head? ho.2) d)
  | accept op k _ _ _ ho =>
    exact absurd rfl (hx _ (List.mem_of_mem_head? ho.2) (commandWord op k))
  | drop _ _ hb _ _ | count _ hb _ _ | complete _ _ hb _ _ =>
    exact absurd (hidle.symm.trans hb) Bool.false_ne_true

/-- Every change to a field of the block needs an access, a reset or a command in flight. -/
theorem step_leftAtReset {s t : State} (h : step s = .next t) (hs : s.LeftAtReset) :
    t.LeftAtReset := by
  obtain ⟨hreset, hx⟩ := hs
  refine ⟨?_, fun x hmem => hx x (List.mem_of_mem_drop (step_pending h ▸ hmem))⟩
  have hquiet : ∀ a, ¬ s.Offers a := fun a ho => hx _ (List.mem_of_mem_head? ho.2) a rfl
  cases step_change h with
  | reset hreset' _ _ => exact hreset'
  | answer _ _ => exact hreset
  | writeA _ _ _ _ ho | writeB _ _ _ _ ho | drop _ _ _ _ ho | fail _ _ _ _ ho
  | accept _ _ _ _ _ ho | ie _ _ ho | status _ ho => exact absurd ho (hquiet _)
  | count _ hb _ _ | complete _ _ hb _ _ =>
    obtain ⟨-, -, -, -, hidle, -⟩ := hreset
    exact absurd (hidle.symm.trans hb) Bool.false_ne_true

/-- The step in which either reset meets the block leaves it at reset (R250, R155). -/
theorem step_reset {s : State} (h : s.pending.head? = some (.rst true) ∨
      ∃ d : Word, d.getLsbD 1 = true ∧ s.Offers (Access.w 0x004 d)) :
    ∃ t, step s = .next t ∧ t.AtReset := by
  rcases h with hassert | ⟨d, hsrst, ho⟩
  · exact ⟨_, step_assert_reset hassert, resetBlock_atReset s⟩
  · exact ⟨_, step_ctrl_srst hsrst ho, resetBlock_atReset s⟩

/-- Settles O40: the reset leaves the block idle and clear, which every later step but a CMD write
keeps; the run goes on because the block at reset meets the invariant. -/
theorem abortedCommandNeverCompletes : Obligations.AbortedCommandNeverCompletes := by
  intro s _ hmeets htail n
  obtain ⟨u, hstep, hu⟩ := step_reset hmeets
  rw [← step_pending hstep] at htail ⊢
  obtain ⟨t, hrun, -⟩ := run_next_inv n (inv_of_atReset hu)
  have ⟨_, _, huZ, _, hub, hud, hue, _⟩ := hu
  obtain ⟨⟨hZ, hb, hd, he⟩, -⟩ := run_keeps step_aborted hrun ⟨⟨huZ, hub, hud, hue⟩, htail⟩
  refine ⟨t, (run_succ hstep n).trans hrun, hZ, hb, hd, he, by simp [State.irq, hd], ?_⟩
  intro hquiet
  obtain ⟨hreset, -⟩ := run_keeps step_leftAtReset hrun ⟨hu, hquiet⟩
  exact hreset

/-! ## The block held in reset (R250) -/

theorem inputInReset_atReset (x : Input) (s : State) : (inputInReset x s).AtReset := by
  cases x <;> exact resetBlock_atReset s

theorem inputInReset_pending (x : Input) (s : State) :
    (inputInReset x s).pending = s.pending := by
  cases x <;> rfl

/-- Only the release of rst_n releases it. -/
theorem inputInReset_released_iff {s : State} (hr : s.rstLow = true) (x : Input) :
    (inputInReset x s).rstLow = false ↔ x = .rst false := by
  cases x with
  | rst low => simp [inputInReset]
  | bus _ | engine | clock => simp [inputInReset, hr]

theorem step_held {s : State} {x : Input} (hr : s.rstLow = true)
    (hx : s.pending.head? = some x) : step s = .next (inputInReset x (s.later 1)) :=
  (step_cons hx).trans (if_pos hr)

/-- A next access is one offered before the rest. -/
theorem later_offer {s : State} {x : Access} (hx : s.pending.head? = some (.bus x)) :
    (s.later 1).offer x = s := by
  obtain ⟨rest, hp⟩ := List.head?_eq_some_iff.1 hx
  rw [later_one hp, State.offer, ← hp]

/-- Settles O39: in reset every input has its meaning from `inputInReset`, and with none pending the
block is reset again. -/
theorem heldWhileResetAsserted : Obligations.HeldWhileResetAsserted := by
  intro s hr
  refine ⟨fun x hx => ?_, fun off h4 hw hx => ?_, fun hp => ?_⟩
  · have hrelease := inputInReset_released_iff (s := s.later 1) hr x
    exact ⟨_, step_held hr hx, inputInReset_atReset x _, inputInReset_pending x _,
      (Bool.eq_false_or_eq_true _).imp_right hrelease.1, hrelease.2⟩
  · obtain ⟨t, hstep, hreset, hresp⟩ := step_offer_read_reset (s := s.later 1) hr h4 hw
    rw [later_offer hx] at hstep
    exact ⟨t, _, hstep, hresp, hreset⟩
  · exact ⟨_, (step_nil hp).trans (if_pos hr), resetBlock_atReset s, hr⟩

end Sys2Proof.Machine
end

section
/-! PROOFS. Family other: the words of spec/opcode_table.json, written through the port (log
entries 10 and 14). -/

namespace Sys2Proof.Machine

/-- A table word reads as an instruction when the write it stands for decodes to it. -/
theorem decodeTableWord_eq_some_iff {nbits w : Nat} {i : Instr} :
    decodeTableWord nbits w = some i ↔ decode (tableAccess nbits w) = .ok i := by
  unfold decodeTableWord
  cases decode (tableAccess nbits w) <;> simp

theorem withFetchWord_offers (s : State) (nbits w : Nat) :
    (s.withFetchWord nbits w).Offers (tableAccess nbits w) :=
  ⟨rfl, rfl⟩

theorem withFetchWord_later_one (s : State) (nbits w : Nat) :
    (s.withFetchWord nbits w).later 1 = { s with rstLow := false } := rfl

/-- Settles O7: the word's write is the access offered next, so O6 applies to it. -/
theorem fetchWordRuns : Obligations.FetchWordRuns := by
  intro s nbits w i h
  have hdecodes := decodeTableWord_eq_some_iff.1 h
  have hruns := stepRunsDecodedInstruction _ _ i (withFetchWord_offers s nbits w) hdecodes
  rwa [withFetchWord_later_one] at hruns

end Sys2Proof.Machine
end
